-- ==== Sys2Proof/Word.lean ====
section
/-! DEFINITION. The word types of the Dyadra core (00_scope.md R6, R7; 30_encoding.md R60, R70). -/

namespace Sys2Proof

/-- A 64-bit word: a raw Dyadra word, an operand or a result (R6 `W` = 64, R60).  Bit 0 is the least
significant bit (R7). -/
abbrev Word := BitVec 64

/-- The 131-bit command word `{op[130:128], b[127:64], a[63:0]}` of R70. -/
abbrev CommandWord := BitVec 131

end Sys2Proof
end

