-- ==== Sys2Proof/Config.lean ====
section
/-! DEFINITION. The build-time parameters of the block (00_scope.md R6) and the free values of the model. -/

namespace Sys2Proof

/-- The values of `HOST_BYTE_ORDER` (R6, R41).  No rule reads it. -/
inductive ByteOrder where
  | little
  | big
  deriving DecidableEq, Repr

/-- The build-time parameters of R6 that are not fixed: "fixed when the block is built and ... not state" (R24). -/
structure Params where
  /-- `HAS_CVTS`: the binary32 converter is present (R6, R174). -/
  hasCvts : Bool
  /-- `LATENCY`: cycles from command to result; no outcome depends on it (R6, R234). -/
  latency : Nat
  /-- `HOST_BYTE_ORDER`: read by no rule (R6, R41). -/
  hostByteOrder : ByteOrder
  deriving DecidableEq, Repr

/-- The spec's default (`HAS_CVTS` = true) and reference (`LATENCY` = 0) values of R6.  The byte order is OPEN and
read by nothing: DESIGN CHOICE, log entry 8. -/
def Params.reference : Params :=
  { hasCvts := true, latency := 0, hostByteOrder := .little }

/-- The free words the model draws: `y` under a non-`OK` status is "a free draw that no claim may depend on"
(R205, log entry 2). -/
opaque Config.freeWord : Nat → Word

/-- The free status codes the model draws: the outputs of a `LATENCY > 0` block before its first completion
(R231, log entry 5). -/
opaque Config.freeStatus : Nat → BitVec 2

end Sys2Proof
end

