-- ==== Sys2Proof/Syntax.lean ====
section
/-! DEFINITION. The commands of the block: the port triple (10_state.md R31), the instructions (30_encoding.md R72,
one constructor per row of spec/opcode_table.json) and the pseudo-instructions (R78). -/

namespace Sys2Proof

/-- `Cmd` of R31: what the host drives on the three input ports for one command. -/
structure Cmd where
  op : BitVec 3
  a  : Word
  b  : Word
  deriving DecidableEq, Repr

/-- The eight rows of the operation map (R72).  Every command carries both operand words (R70), also where the
operation reads one of them or none (R73). -/
inductive Instr where
  /-- `000`: leading-one position of `a` (R101). -/
  | lod  (a b : Word)
  /-- `001`: odd numerator of `a` (R123). -/
  | mant (a b : Word)
  /-- `010`: checked product of `a` and `b` (R148). -/
  | cmul (a b : Word)
  /-- `011`: product of `a` and `b`, aborting on failure (R150). -/
  | mul  (a b : Word)
  /-- `100`: `a` converted to binary64 (R173). -/
  | cvtd (a b : Word)
  /-- `101`: `a` converted to binary32, if `HAS_CVTS` (R174). -/
  | cvts (a b : Word)
  /-- `110`: reserved (R75, R203). -/
  | reserved110 (a b : Word)
  /-- `111`: reserved (R75, R203). -/
  | reserved111 (a b : Word)
  deriving DecidableEq, Repr

/-- The pseudo-instructions of R78. -/
inductive Pseudo where
  | leadingOne (a : Word)
  | mantissa   (a : Word)
  | checkedMul (a b : Word)
  | toFloat    (a : Word)
  | sqr        (a : Word)
  | dbg        (a : Word)
  deriving DecidableEq, Repr

end Sys2Proof
end

