-- ==== Sys2Proof/WellFormed.lean ====
section
/-! DEFINITION. The checks on a command.  The spec has no ill-formed command word: "No raw word is invalid" (R61), all
eight op codes are decoded (R72, R75).  What it does distinguish is which commands have an assembler spelling (R77)
and which perform an operation (R203). -/

namespace Sys2Proof

/-- A command is well formed: always, since every op code and every operand word is accepted by the decoder
(R61, R73, R75). -/
def Instr.wellFormed : Instr → Bool
  | .lod _ _ => true
  | .mant _ _ => true
  | .cmul _ _ => true
  | .mul _ _ => true
  | .cvtd _ _ => true
  | .cvts _ _ => true
  | .reserved110 _ _ => true
  | .reserved111 _ _ => true

/-- The command has a mnemonic a host can write: the reserved codes have none (R75, R77). -/
def Instr.writable : Instr → Bool
  | .lod _ _ => true
  | .mant _ _ => true
  | .cmul _ _ => true
  | .mul _ _ => true
  | .cvtd _ _ => true
  | .cvts _ _ => true
  | .reserved110 _ _ => false
  | .reserved111 _ _ => false

/-- The op code selects an operation of a block built with parameters `p`: not a reserved code, and `CVTS` only
where `HAS_CVTS` holds (R75, R203). -/
def Instr.performs (p : Params) : Instr → Bool
  | .lod _ _ => true
  | .mant _ _ => true
  | .cmul _ _ => true
  | .mul _ _ => true
  | .cvtd _ _ => true
  | .cvts _ _ => p.hasCvts
  | .reserved110 _ _ => false
  | .reserved111 _ _ => false

end Sys2Proof
end

