-- ==== Sys2Proof/Decode.lean ====
section
/-! DEFINITION. Decoding and encoding of commands (30_encoding.md R70, R72, R73, R76; spec/opcode_table.json) and the
expansion of pseudo-instructions (R78).  The block never divides a word into bytes (R41): the decoder's input is the
131-bit command word, or the three ports. -/

namespace Sys2Proof

/-- Why a number is no command word. -/
inductive DecodeError where
  /-- The number has a bit at position 131 or above, where the command word has none (R70). -/
  | tooWide
  deriving DecidableEq, Repr

/-- The fields of a command word (R70): `op` = bits 130:128, `b` = bits 127:64, `a` = bits 63:0. -/
def cmdOfWord (w : CommandWord) : Cmd :=
  { op := w.extractLsb' 128 3, a := w.extractLsb' 0 64, b := w.extractLsb' 64 64 }

/-- The operation map of R72: "A decoder reads `op` alone" (R76). -/
def decodeCmd (c : Cmd) : Instr :=
  match c.op.toNat with
  | 0 => .lod c.a c.b
  | 1 => .mant c.a c.b
  | 2 => .cmul c.a c.b
  | 3 => .mul c.a c.b
  | 4 => .cvtd c.a c.b
  | 5 => .cvts c.a c.b
  | 6 => .reserved110 c.a c.b
  | _ => .reserved111 c.a c.b

/-- The command a command word stands for; every 131-bit word is one (R61, R72). -/
def decode (w : CommandWord) : Instr :=
  decodeCmd (cmdOfWord w)

/-- The command a number stands for, or why it stands for none. -/
def decodeNat (w : Nat) : Except DecodeError Instr :=
  if w < 2 ^ 131 then .ok (decode (BitVec.ofNat 131 w)) else .error .tooWide

/-- The command in the low `nbits` bits of `w`, numbered as spec/opcode_table.json numbers them (bit 0 of `a` is
bit 0), the bits above `nbits` zero. -/
def decodeTableWord (nbits w : Nat) : Option Instr :=
  (decodeNat (w % 2 ^ nbits)).toOption

/-- The op code of a command (R72). -/
def Instr.opcode : Instr → BitVec 3
  | .lod _ _ => 0b000#3
  | .mant _ _ => 0b001#3
  | .cmul _ _ => 0b010#3
  | .mul _ _ => 0b011#3
  | .cvtd _ _ => 0b100#3
  | .cvts _ _ => 0b101#3
  | .reserved110 _ _ => 0b110#3
  | .reserved111 _ _ => 0b111#3

/-- The first operand word (R70). -/
def Instr.operandA : Instr → Word
  | .lod a _ => a
  | .mant a _ => a
  | .cmul a _ => a
  | .mul a _ => a
  | .cvtd a _ => a
  | .cvts a _ => a
  | .reserved110 a _ => a
  | .reserved111 a _ => a

/-- The second operand word (R70). -/
def Instr.operandB : Instr → Word
  | .lod _ b => b
  | .mant _ b => b
  | .cmul _ b => b
  | .mul _ b => b
  | .cvtd _ b => b
  | .cvts _ b => b
  | .reserved110 _ b => b
  | .reserved111 _ b => b

/-- What a host drives on the ports for a command. -/
def encodeCmd (i : Instr) : Cmd :=
  { op := i.opcode, a := i.operandA, b := i.operandB }

/-- The command word `{op, b, a}` of R70. -/
def wordOfCmd (c : Cmd) : CommandWord :=
  c.op ++ c.b ++ c.a

/-- The command word of a command (R70, R72). -/
def encode (i : Instr) : CommandWord :=
  wordOfCmd (encodeCmd i)

/-- The assembler mnemonic (R77); the reserved codes have none (R75). -/
def Instr.mnemonic : Instr → Option String
  | .lod _ _ => some "LOD"
  | .mant _ _ => some "MANT"
  | .cmul _ _ => some "CMUL"
  | .mul _ _ => some "MUL"
  | .cvtd _ _ => some "CVTD"
  | .cvts _ _ => some "CVTS"
  | .reserved110 _ _ => none
  | .reserved111 _ _ => none

/-- The commands a pseudo-instruction expands to (R78).  A unary command is written without `b`; `b` is then 0, as
in every unary row of 95_test_vectors.md section 2. -/
def Pseudo.expand : Pseudo → List Instr
  | .leadingOne a => [.lod a 0]
  | .mantissa a => [.mant a 0]
  | .checkedMul a b => [.cmul a b]
  | .toFloat a => [.cvtd a 0]
  | .sqr a => [.cmul a a]
  | .dbg a => [.mant a 0, .lod a 0]

end Sys2Proof
end

