-- ==== Sys2Proof/Machine/State.lean ====
section
/-! DEFINITION. The state of the machine: the block's ports (10_state.md R28), its build-time parameters (00_scope.md
R6) and the model's counter of free draws; the outcomes of a command (R31, R74) and the reasons of a stop. -/

namespace Sys2Proof.Machine

/-- The fault causes of R31, R202 and R203.  They are outcomes of a COMMAND, reported on the `status` port of a next
state: the block is not stopped by them, "the command after a fault is evaluated normally" (R209, log entry 1).  No
step of the machine ends in `.fault`. -/
inductive Fault where
  /-- Raised by `MUL` when `LO(a) + LO(b) >= 64` (R202): status `10` in a next state.  Safe: no stop is invented. -/
  | precisionError
  /-- Raised by the reserved op codes, and by `CVTS` without `HAS_CVTS` (R203): status `11` in a next state.  Safe:
  no stop is invented. -/
  | illegalOp
  deriving DecidableEq, Repr

/-- The reasons a step gives no meaning.  Every row of the opcode table has one, so none is ever raised. -/
inductive Refusal where
  /-- Raised by no arm of `exec`: every instruction is modelled.  Safe. -/
  | notModelled (mnemonic : String)
  deriving DecidableEq, Repr

/-- The names of the four status codes (R74). -/
inductive Status where
  | ok
  | absent
  | precisionError
  | illegalOp
  deriving DecidableEq, Repr

/-- `Outcome` of R31: how one command ends (R200). -/
inductive CmdOutcome where
  /-- The result word (status `OK`). -/
  | ok (y : Word)
  /-- `CMUL` has no result: recoverable, not a fault (R201). -/
  | absent
  /-- The command ends in a fault (R202, R203). -/
  | fault (f : Fault)
  deriving DecidableEq, Repr

/-- The ports of R28, with the build-time parameters of R6 the block is built with.  The block itself keeps nothing
(R20): `op`, `a`, `b` are what the host drives, `y` and `status` are the outputs of the last evaluated command
(log entry 1). -/
structure State where
  /-- Input port `op[2:0]` (R28). -/
  op : BitVec 3
  /-- Input port `a[63:0]` (R28). -/
  a : Word
  /-- Input port `b[63:0]` (R28). -/
  b : Word
  /-- Output port `y[63:0]` (R28, R71). -/
  y : Word
  /-- Output port `status[1:0]` (R28, R74). -/
  status : BitVec 2
  /-- The build-time parameters (R6, R24); no step changes them (log entry 4). -/
  params : Params
  /-- The model's own: how many free words have been drawn (R205, log entry 2). -/
  draws : Nat
  deriving DecidableEq, Repr

/-- The machine after power-on.  The block has no reset state (R30, R230): its outputs are those of the inputs
present.  The inputs are the host's; here `LOD 0` (DESIGN CHOICE, log entry 3), whose outcome is `OK`, 0 (R101). -/
def State.reset : State :=
  { op := 0b000#3, a := 0, b := 0, y := 0, status := 0b00#2, params := Params.reference, draws := 0 }

end Sys2Proof.Machine
end

