-- ==== Sys2Proof/Machine/Flags.lean ====
section
/-! DEFINITION. The status port, the block's only flag-like output (10_state.md R23; 30_encoding.md R74). -/

namespace Sys2Proof.Machine

/-- The 2-bit status codes of R74. -/
def Status.code : Status → BitVec 2
  | .ok => 0b00#2
  | .absent => 0b01#2
  | .precisionError => 0b10#2
  | .illegalOp => 0b11#2

/-- The status a fault cause is reported with (R74, R202, R203). -/
def Fault.status : Fault → Status
  | .precisionError => .precisionError
  | .illegalOp => .illegalOp

/-- The mapping of a command's outcome to its status (R31, R74, R200). -/
def CmdOutcome.status : CmdOutcome → Status
  | .ok _ => .ok
  | .absent => .absent
  | .fault f => f.status

/-- The word on `y` for an outcome: the result under `OK`, the given free word under every other status
(R71, R205). -/
def CmdOutcome.word (free : Word) : CmdOutcome → Word
  | .ok y => y
  | .absent => free
  | .fault _ => free

/-- How many free words an outcome draws: one where no result word exists (R205). -/
def CmdOutcome.drawCount : CmdOutcome → Nat
  | .ok _ => 0
  | .absent => 1
  | .fault _ => 1

end Sys2Proof.Machine
end

