-- ==== Sys2Proof/Machine/Ops.lean ====
section
/-! DEFINITION. The operators of 00_scope.md R8 and the operations on the ports.  The block has no memory (R26, R40)
and no exception entry (R208): what the other machines do there, `State.complete` does by reporting the outcome on
`status`. -/

namespace Sys2Proof.Machine

/-- `sat_sub(a, b) = max(a - b, 0)`, as the explicit clamped computation R8 asks for. -/
def satSub (a b : Nat) : Nat :=
  if b ≤ a then a - b else 0

/-- The zero bits of `x` from bit `k - 1` down to its first one bit, or `k` where the low `k` bits are zero. -/
def leadingZerosBelow (x : Word) : Nat → Nat
  | 0 => 0
  | k + 1 => if x.getLsbD k then 0 else leadingZerosBelow x k + 1

/-- `clz64(x)`: the number of leading zero bits, `clz64(0) = 64` (R8). -/
def clz64 (x : Word) : Nat :=
  leadingZerosBelow x 64

/-- `bitlen(v)`: the least k with `v < 2^k`, `bitlen(0) = 0` (R8). -/
def bitlen (v : Nat) : Nat :=
  if v = 0 then 0 else Nat.log2 v + 1

/-- `zext_64(v)` (R8). -/
def zext64 {n : Nat} (v : BitVec n) : Word :=
  v.setWidth 64

/-- The command present on the input ports (R28). -/
def State.cmd (s : State) : Cmd :=
  { op := s.op, a := s.a, b := s.b }

/-- The host drives a command on the input ports (R22, R28); the outputs are those of the last evaluated command until
the next step. -/
def State.present (s : State) (c : Cmd) : State :=
  { s with op := c.op, a := c.a, b := c.b }

/-- The instruction the input ports select, which is what a step evaluates (R72): the block fetches nothing, the
operation arrives "on the `op` port together with its operands" (R48). -/
def State.instr (s : State) : Instr :=
  decodeCmd s.cmd

/-- A command ends: its outcome appears on the output ports and nothing else changes (R31, R71, R200, R208).  Where
the outcome has no word, `y` is the next free draw (R205). -/
def State.complete (s : State) (o : CmdOutcome) : State :=
  { s with
    y := o.word (Config.freeWord s.draws)
    status := o.status.code
    draws := s.draws + o.drawCount }

end Sys2Proof.Machine
end

