-- ==== Sys2Proof/Machine/Operands.lean ====
section
/-! DEFINITION. What the units read from an operand word (30_encoding.md R62, R73): its leading-one position
(40_leading_one.md R100) and its odd numerator (41_mantissa.md R120 to R122). -/

namespace Sys2Proof.Machine

/-- `LO(x) = 64 - clz64(x)` (R100). -/
def leadingOne (x : Word) : Nat :=
  64 - clz64 x

/-- The mask width `k = sat_sub(i, 1)` (R120). -/
def maskWidth (i : Nat) : Nat :=
  satSub i 1

/-- `MASK(i) = (1 << sat_sub(i, 1)) - 1`, computed in 64 bits (R121). -/
def mask (i : Nat) : Word :=
  (1#64 <<< maskWidth i) - 1#64

/-- The isolated `mantissa_bits`: the bits of `x` below its leading one (R122). -/
def mantissaBits (x : Word) : Word :=
  x &&& mask (leadingOne x)

/-- `MANT(x) = (mb << 1) | 1`: the odd numerator (R122). -/
def mantissa (x : Word) : Word :=
  (mantissaBits x <<< 1) ||| 1#64

end Sys2Proof.Machine
end

