-- ==== Sys2Proof/Machine/Reserved.lean ====
section
/-! DEFINITION. The reserved op codes (30_encoding.md R75; 60_exceptions.md R203). -/

namespace Sys2Proof.Machine

/-- `raise ILLEGAL_OP()`: "the command performs no operation, and neither operand is inspected" (R203). -/
def illegalOutcome : CmdOutcome :=
  .fault .illegalOp

/-- Op code `110` (R203). -/
def execReserved110 (_a _b : Word) (s : State) : Host.Outcome State Fault Refusal :=
  .next (s.complete illegalOutcome)

/-- Op code `111` (R203). -/
def execReserved111 (_a _b : Word) (s : State) : Host.Outcome State Fault Refusal :=
  .next (s.complete illegalOutcome)

end Sys2Proof.Machine
end

