-- ==== Sys2Proof/Machine/FloatConvert.lean ====
section
/-! DEFINITION. The float_converter and the commands `CVTD` and `CVTS` (43_float_convert.md; unit ports: 10_state.md
R29).  The rounding (R171) and the layouts (R172) are the spec's, which marks them as general knowledge: log entries
6 and 7. -/

namespace Sys2Proof.Machine

/-- A binary interchange format (R172): significand precision `P` and exponent bias; the fraction has `P - 1` bits. -/
structure FloatFormat where
  precision : Nat
  bias : Nat
  deriving DecidableEq, Repr

/-- binary64: P = 53, BIAS = 1023 (R172). -/
def binary64 : FloatFormat := { precision := 53, bias := 1023 }

/-- binary32: P = 24, BIAS = 127 (R172). -/
def binary32 : FloatFormat := { precision := 24, bias := 127 }

/-- The rounded significand `s` in `[2^(P-1), 2^P)` and the bit length `L` of R172 after the carry out. -/
structure Significand where
  sig : Nat
  len : Nat
  deriving DecidableEq, Repr

/-- The number of low bits of `m` that do not fit `P` bits: `sh = L - P` (R172). -/
def discardCount (P m : Nat) : Nat :=
  bitlen m - P

/-- The discarded bits `r = m & ((1 << sh) - 1)` (R172). -/
def discardedBits (P m : Nat) : Nat :=
  m &&& ((1 <<< discardCount P m) - 1)

/-- The significand before rounding: `q = m >> sh` (R172). -/
def truncatedSig (P m : Nat) : Nat :=
  m >>> discardCount P m

/-- Whether `q` is incremented: `r > half`, or a tie with `q` odd (R172: round to nearest, ties to even). -/
def roundsUp (P m : Nat) : Bool :=
  let half := 1 <<< (discardCount P m - 1)
  decide (half < discardedBits P m) || (decide (discardedBits P m = half) && (truncatedSig P m).testBit 0)

/-- `q` after the increment, before the carry out (R172). -/
def roundedSig (P m : Nat) : Nat :=
  if roundsUp P m then truncatedSig P m + 1 else truncatedSig P m

/-- The significand and length of R172: exact where `m` fits `P` bits, else rounded, with the carry out of the
significand moved into the length. -/
def roundNumerator (P m : Nat) : Significand :=
  if bitlen m ≤ P then
    { sig := m <<< (P - bitlen m), len := bitlen m }
  else if roundedSig P m = 1 <<< P then
    { sig := roundedSig P m >>> 1, len := bitlen m + 1 }
  else
    { sig := roundedSig P m, len := bitlen m }

/-- The unbiased exponent `E = L - i - 1` (R172). -/
def unbiasedExponent (f : FloatFormat) (x : Word) : Int :=
  ((roundNumerator f.precision (mantissa x).toNat).len : Int) - (leadingOne x : Int) - 1

/-- The biased exponent field `E + BIAS`; R175 shows that it is positive. -/
def biasedExponent (f : FloatFormat) (x : Word) : Nat :=
  (unbiasedExponent f x + (f.bias : Int)).toNat

/-- The fraction field `s - (1 << (P - 1))` (R172). -/
def fractionField (f : FloatFormat) (x : Word) : Nat :=
  (roundNumerator f.precision (mantissa x).toNat).sig - 1 <<< (f.precision - 1)

/-- `CVT64(x) = {0, biased[10:0], frac[51:0]}` (R172). -/
def cvt64 (x : Word) : BitVec 64 :=
  0#1 ++ BitVec.ofNat 11 (biasedExponent binary64 x) ++ BitVec.ofNat 52 (fractionField binary64 x)

/-- `CVT32(x) = {0, biased[7:0], frac[22:0]}` (R172). -/
def cvt32 (x : Word) : BitVec 32 :=
  0#1 ++ BitVec.ofNat 8 (biasedExponent binary32 x) ++ BitVec.ofNat 23 (fractionField binary32 x)

/-- The unit's port `f[63:0]`: binary64 for `fmt` = 0, zero-extended binary32 for `fmt` = 1 (R29). -/
def fcvtUnit (x : Word) (fmt : Bool) : Word :=
  if fmt then zext64 (cvt32 x) else cvt64 x

/-- `CVTD`: `result CVT64(a)` (R173). -/
def cvtdOutcome (a : Word) : CmdOutcome :=
  .ok (fcvtUnit a false)

/-- `CVTS`: `ILLEGAL_OP` without `HAS_CVTS`, else `result zext_64(CVT32(a))` (R174); the op code is checked before
the operand is examined (R206). -/
def cvtsOutcome (p : Params) (a : Word) : CmdOutcome :=
  if p.hasCvts then .ok (fcvtUnit a true) else illegalOutcome

/-- `CVTD`: `b` is ignored (R73, R173). -/
def execCvtd (a _b : Word) (s : State) : Host.Outcome State Fault Refusal :=
  .next (s.complete (cvtdOutcome a))

/-- `CVTS`: `b` is ignored (R73, R174). -/
def execCvts (a _b : Word) (s : State) : Host.Outcome State Fault Refusal :=
  .next (s.complete (cvtsOutcome s.params a))

end Sys2Proof.Machine
end

