-- ==== Sys2Proof/Machine/LeadingOne.lean ====
section
/-! DEFINITION. The leading_one_detector and the command `LOD` (40_leading_one.md; unit port: 10_state.md R29). -/

namespace Sys2Proof.Machine

/-- The unit's port `pos[6:0] = LO(x)` (R29, R100). -/
def lodUnit (x : Word) : BitVec 7 :=
  BitVec.ofNat 7 (leadingOne x)

/-- `LOD`: `result zext_64(LO(a))` (R101). -/
def lodOutcome (a : Word) : CmdOutcome :=
  .ok (zext64 (lodUnit a))

/-- `LOD`: `b` is ignored (R73, R101). -/
def execLod (a _b : Word) (s : State) : Host.Outcome State Fault Refusal :=
  .next (s.complete (lodOutcome a))

end Sys2Proof.Machine
end

