-- ==== Sys2Proof/Machine/Mantissa.lean ====
section
/-! DEFINITION. The mantissa_extractor and the command `MANT` (41_mantissa.md; unit port: 10_state.md R29). -/

namespace Sys2Proof.Machine

/-- The unit's port `m[63:0] = MANT(x)` (R29, R122). -/
def mexUnit (x : Word) : Word :=
  mantissa x

/-- `MANT`: `result MANT(a)` (R123). -/
def mantOutcome (a : Word) : CmdOutcome :=
  .ok (mexUnit a)

/-- `MANT`: `b` is ignored (R73, R123). -/
def execMant (a _b : Word) (s : State) : Host.Outcome State Fault Refusal :=
  .next (s.complete (mantOutcome a))

end Sys2Proof.Machine
end

