-- ==== Sys2Proof/Machine/Multiply.lean ====
section
/-! DEFINITION. The dyadic_multiplier and the commands `CMUL` and `MUL` (42_multiply.md; unit ports: 10_state.md
R29). -/

namespace Sys2Proof.Machine

/-- The exponent sum `n = LO(a) + LO(b)`, exact over 0..128 (R140). -/
def exponentSum (a b : Word) : Nat :=
  leadingOne a + leadingOne b

/-- `HB(n)`: the word with the single bit `n - 1` set, 0 for `n = 0` (R143). -/
def highBit (n : Nat) : Word :=
  if n = 0 then 0#64 else 1#64 <<< (n - 1)

/-- `p = MANT(a) * MANT(b)`: the exact integer product (R144). -/
def numeratorProduct (a b : Word) : Nat :=
  (mantissa a).toNat * (mantissa b).toNat

/-- `mb = p >> 1`: the result's mantissa bits (R145), in a word; R147 shows that no bit is lost. -/
def productBits (a b : Word) : Word :=
  BitVec.ofNat 64 (numeratorProduct a b >>> 1)

/-- `CHECKED_MUL(a, b)` of R141: the exponent test comes before the product (R142, R206, C1, C3). -/
def checkedMul (a b : Word) : Option Word :=
  if 64 ≤ exponentSum a b then none else some (highBit (exponentSum a b) + productBits a b)

/-- The unit's ports `(ok, p)` (R29); `p` is the given free word where `ok` = 0. -/
def dmulUnit (free a b : Word) : Bool × Word :=
  match checkedMul a b with
  | some y => (true, y)
  | none => (false, free)

/-- `CMUL`: the product, or `ABSENT` (R148). -/
def cmulOutcome (a b : Word) : CmdOutcome :=
  match checkedMul a b with
  | some y => .ok y
  | none => .absent

/-- `MUL`: the product, or `PRECISION_ERROR` (R150). -/
def mulOutcome (a b : Word) : CmdOutcome :=
  match checkedMul a b with
  | some y => .ok y
  | none => .fault .precisionError

/-- `CMUL` (R148). -/
def execCmul (a b : Word) (s : State) : Host.Outcome State Fault Refusal :=
  .next (s.complete (cmulOutcome a b))

/-- `MUL` (R150): the fault is reported on `status`, the block goes on (R208, R209, log entry 1). -/
def execMul (a b : Word) (s : State) : Host.Outcome State Fault Refusal :=
  .next (s.complete (mulOutcome a b))

end Sys2Proof.Machine
end

