-- ==== Sys2Proof/Machine/Dispatch.lean ====
section
/-! DEFINITION. One arm per row of the operation map (30_encoding.md R72). -/

namespace Sys2Proof.Machine

def exec (i : Instr) (s : State) : Host.Outcome State Fault Refusal :=
  match i with
  | .lod a b => Sys2Proof.Machine.execLod a b s
  | .mant a b => Sys2Proof.Machine.execMant a b s
  | .cmul a b => Sys2Proof.Machine.execCmul a b s
  | .mul a b => Sys2Proof.Machine.execMul a b s
  | .cvtd a b => Sys2Proof.Machine.execCvtd a b s
  | .cvts a b => Sys2Proof.Machine.execCvts a b s
  | .reserved110 a b => Sys2Proof.Machine.execReserved110 a b s
  | .reserved111 a b => Sys2Proof.Machine.execReserved111 a b s

end Sys2Proof.Machine
end

