-- ==== Sys2Proof/Machine/Step.lean ====
section
/-! DEFINITION. One step: one command as one atomic evaluation (70_reset_and_hazards.md R235). -/

namespace Sys2Proof.Machine

/-- The inputs present are applied and the outcome is produced (R31, R235).  Nothing advances: the next command is
whatever the host drives next (R22, R79). -/
def step (s : State) : Host.Outcome State Fault Refusal :=
  exec s.instr s

/-- `s` with the command in the low `nbits` bits of `w` on the input ports, which is where a step takes its command
from (R48).  The ports are 131 bits wide (R28, R70); log entry 8. -/
def State.withFetchWord (s : State) (nbits w : Nat) : State :=
  s.present (cmdOfWord (BitVec.ofNat 131 (w % 2 ^ nbits)))

end Sys2Proof.Machine
end

