-- ==== Sys2Proof/Machine/Eval.lean ====
section
/-! DEFINITION. The spec's own form of the block, `eval : Params -> Cmd -> Outcome` (10_state.md R31), and the outputs at
power-on (70_reset_and_hazards.md R230, R231). -/

namespace Sys2Proof.Machine

/-- The outcome of a command of a block built with parameters `p` (R31, R72). -/
def outcomeOf (p : Params) : Instr → CmdOutcome
  | .lod a _ => lodOutcome a
  | .mant a _ => mantOutcome a
  | .cmul a b => cmulOutcome a b
  | .mul a b => mulOutcome a b
  | .cvtd a _ => cvtdOutcome a
  | .cvts a _ => cvtsOutcome p a
  | .reserved110 _ _ => illegalOutcome
  | .reserved111 _ _ => illegalOutcome

/-- `eval` of R31. -/
def eval (p : Params) (c : Cmd) : CmdOutcome :=
  outcomeOf p (decodeCmd c)

/-- A block of parameters `p` at power-on, with command `c` on its inputs.  With `LATENCY = 0` its outputs are
`eval(params, cmd)` of the inputs present (R230); with `LATENCY > 0` they are unspecified until the first command has
completed: free draws (R231, log entry 5). -/
def State.powerOn (p : Params) (c : Cmd) : State :=
  if p.latency = 0 then
    State.complete
      { op := c.op, a := c.a, b := c.b, y := 0, status := Status.ok.code, params := p, draws := 0 } (eval p c)
  else
    { op := c.op, a := c.a, b := c.b, y := Config.freeWord 0, status := Config.freeStatus 0, params := p, draws := 1 }

end Sys2Proof.Machine
end

