-- ==== Sys2Proof/Machine/Value.lean ====
section
/-! DEFINITION. What words and float patterns stand for: the value of a raw word (30_encoding.md R62, R64, R66) and of
an IEEE 754 pattern (43_float_convert.md R172).  No command computes these; statements are made in their terms. -/

namespace Sys2Proof.Machine

/-- `value(raw) = m / 2^i` (R62). -/
def value (x : Word) : Rat :=
  ((mantissa x).toNat : Rat) / 2 ^ leadingOne x

/-- `encode(p / 2^n) = 2^(n-1) + (p - 1) / 2` (R64), for `1 <= n <= 64`, `p` odd and `p < 2^n`. -/
def encodeFraction (p n : Nat) : Word :=
  BitVec.ofNat 64 (2 ^ (n - 1) + (p - 1) / 2)

/-- `MAX`: raw word 0, value 1 (R66). -/
def maxWord : Word := 0

/-- `MIN`: raw word `1 << 63`, value 2^-64 (R66). -/
def minWord : Word := 0x8000_0000_0000_0000#64

/-- The exact value of sign, biased exponent and fraction fields of format `f` (R172 gives normal numbers,
`s * 2^(E - (P-1))`; the subnormal line is the standard's, log entry 7). -/
def fieldsValue (f : FloatFormat) (negative : Bool) (biased frac : Nat) : Rat :=
  (if negative then -1 else 1) *
    (if biased = 0 then (frac : Rat) * 2 ^ (1 - (f.bias : Int) - ((f.precision : Int) - 1))
     else ((2 : Rat) ^ (f.precision - 1) + frac) * 2 ^ ((biased : Int) - f.bias - ((f.precision : Int) - 1)))

/-- The biased exponent field of a binary64 pattern: bits 62:52 (R172). -/
def exponent64 (z : BitVec 64) : Nat := (z.extractLsb' 52 11).toNat

/-- The fraction field of a binary64 pattern: bits 51:0 (R172). -/
def fraction64 (z : BitVec 64) : Nat := (z.extractLsb' 0 52).toNat

/-- The value of a finite binary64 pattern. -/
def float64Value (z : BitVec 64) : Rat :=
  fieldsValue binary64 (z.getLsbD 63) (exponent64 z) (fraction64 z)

/-- The pattern is neither an infinity nor a NaN: its exponent field is not all ones. -/
def finite64 (z : BitVec 64) : Bool := decide (exponent64 z ≠ 2047)

/-- The biased exponent field of a binary32 pattern: bits 30:23 (R172). -/
def exponent32 (z : BitVec 32) : Nat := (z.extractLsb' 23 8).toNat

/-- The fraction field of a binary32 pattern: bits 22:0 (R172). -/
def fraction32 (z : BitVec 32) : Nat := (z.extractLsb' 0 23).toNat

/-- The value of a finite binary32 pattern. -/
def float32Value (z : BitVec 32) : Rat :=
  fieldsValue binary32 (z.getLsbD 31) (exponent32 z) (fraction32 z)

/-- The pattern is neither an infinity nor a NaN. -/
def finite32 (z : BitVec 32) : Bool := decide (exponent32 z ≠ 255)

end Sys2Proof.Machine
end

