-- ==== Sys2Proof/Safety.lean ====
section
/-! DEFINITION. The terms statements use: how an instruction completes, and what it is for the outputs to be those of
the inputs present. -/

namespace Sys2Proof.Safety

open Sys2Proof.Machine

/-- Instruction `i` completes from `s`, in a next state of which `P` holds. -/
def Completes (i : Instr) (s : State) (P : State → Prop) : Prop :=
  ∃ t, exec i s = .next t ∧ P t

/-- `t` is `s` with a result: status `OK`, `y` what it is in `t`, and every other piece of state unchanged. -/
def GivesResult (s t : State) : Prop :=
  t = { s with y := t.y, status := Status.ok.code }

/-- `t` is `s` with no result: status `st`, and every other piece of the spec's state but `y` unchanged.  `y` carries
no information (R205), so nothing is said of it, nor of the model's own draw counter (log entry 2). -/
def GivesNoResult (st : Status) (s t : State) : Prop :=
  t = { s with y := t.y, status := st.code, draws := t.draws }

/-- The exponent sum of the operands on the ports is too large for a product (R142). -/
def Overflows (s : State) : Prop :=
  64 ≤ leadingOne s.a + leadingOne s.b

/-- The op code on the ports selects no operation (R203). -/
def SelectsNothing (s : State) : Prop :=
  s.op = 0b110#3 ∨ s.op = 0b111#3 ∨ (s.op = 0b101#3 ∧ s.params.hasCvts = false)

/-- The outputs are those of the inputs present (R230, R235), said port by port: which status stands on `status`
(R74, R204), and under `OK` what `y` is for each op code (R72). -/
structure Settled (s : State) : Prop where
  absent : s.status = Status.absent.code ↔ s.op = 0b010#3 ∧ Overflows s
  precisionError : s.status = Status.precisionError.code ↔ s.op = 0b011#3 ∧ Overflows s
  illegalOp : s.status = Status.illegalOp.code ↔ SelectsNothing s
  lod : s.op = 0b000#3 → s.y.toNat = leadingOne s.a
  mant : s.op = 0b001#3 → s.y = mantissa s.a
  product : (s.op = 0b010#3 ∨ s.op = 0b011#3) → ¬ Overflows s → value s.y = value s.a * value s.b
  cvtd : s.op = 0b100#3 → s.y = cvt64 s.a
  cvts : s.op = 0b101#3 → s.params.hasCvts = true → s.y = (cvt32 s.a).setWidth 64

/-- `y` is the finite binary64 pattern nearest to `v`; where another finite value is as near, the last fraction bit
of `y` is 0 (round to nearest, ties to even: R171). -/
def NearestEven64 (v : Rat) (y : BitVec 64) : Prop :=
  finite64 y = true ∧
    ∀ z, finite64 z = true →
      |float64Value y - v| ≤ |float64Value z - v| ∧
        (|float64Value z - v| = |float64Value y - v| → float64Value z ≠ float64Value y → y.getLsbD 0 = false)

/-- The same for binary32. -/
def NearestEven32 (v : Rat) (y : BitVec 32) : Prop :=
  finite32 y = true ∧
    ∀ z, finite32 z = true →
      |float32Value y - v| ≤ |float32Value z - v| ∧
        (|float32Value z - v| = |float32Value y - v| → float32Value z ≠ float32Value y → y.getLsbD 0 = false)

/-- A run is safe as long as no command of it ends in a fault (R202, R203, R209). -/
def NoFault (s : State) : Prop :=
  s.status ≠ Status.precisionError.code ∧ s.status ≠ Status.illegalOp.code

end Sys2Proof.Safety
end

