-- ==== Sys2Proof/Certificates/Slice0/Obligations.lean ====
section
/-! DEFINITION. The statements for the provers, from the numbered rules of spec/. -/

open Sys2Proof Sys2Proof.Machine Sys2Proof.Safety

/-! ## The encoding of values -/

/-- R102 (each form equal to `LO(x)`): the bit length (the least k with `x < 2^k`), the unique i with
`2^(i-1) <= x < 2^i`, `floor(log2 x) + 1`, and the priority encoder. -/
def Obligations.LeadingOneEquivalentForms : Prop :=
  ∀ x : Word,
    leadingOne x = bitlen x.toNat ∧
    (∀ k, leadingOne x ≤ k ↔ x.toNat < 2 ^ k) ∧
    (x ≠ 0 → ∀ i, (1 ≤ i ∧ 2 ^ (i - 1) ≤ x.toNat ∧ x.toNat < 2 ^ i) ↔ leadingOne x = i) ∧
    (x ≠ 0 → leadingOne x = Nat.log2 x.toNat + 1) ∧
    (x = 0 → leadingOne x = 0) ∧
    (∀ k, x.getLsbD k = true → (∀ j, k < j → x.getLsbD j = false) → leadingOne x = k + 1)

/-- R103: when `LO` is 0 and when it is 64, the leading one and the zeros above it, and the single-bit words. -/
def Obligations.LeadingOneConsequences : Prop :=
  (∀ x : Word,
    (leadingOne x = 0 ↔ x = 0) ∧
    (leadingOne x = 64 ↔ x.getLsbD 63 = true) ∧
    (leadingOne x = 64 ↔ 2 ^ 63 ≤ x.toNat) ∧
    (1 ≤ leadingOne x →
      x.getLsbD (leadingOne x - 1) = true ∧ ∀ j, leadingOne x ≤ j → x.getLsbD j = false)) ∧
  (∀ k : Nat, 1 ≤ k → k ≤ 64 →
    leadingOne (1#64 <<< (k - 1)) = k ∧ value (1#64 <<< (k - 1)) = 1 / 2 ^ k)

/-- R120 and R121: the mask width of a word and the value of every mask. -/
def Obligations.MaskValues : Prop :=
  (∀ x : Word,
    maskWidth (leadingOne x) ≤ 63 ∧
    (leadingOne x = 0 → maskWidth (leadingOne x) = 0) ∧
    (1 ≤ leadingOne x → maskWidth (leadingOne x) + 1 = leadingOne x)) ∧
  mask 0 = 0 ∧ mask 1 = 0 ∧ mask 64 = 0x7FFF_FFFF_FFFF_FFFF#64 ∧
  (∀ i : Nat, 1 ≤ i → i ≤ 64 → (mask i).toNat + 1 = 2 ^ (i - 1)) ∧
  (∀ i : Nat, i ≤ 64 → (mask i).getLsbD 63 = false)

/-- R124: the numerator is odd, its range for every exponent, and that every odd number of the range occurs. -/
def Obligations.NumeratorRange : Prop :=
  (∀ x : Word,
    (mantissa x).toNat % 2 = 1 ∧
    (leadingOne x = 0 → x = 0 ∧ (mantissa x).toNat = 1) ∧
    (1 ≤ leadingOne x →
      1 ≤ (mantissa x).toNat ∧ (mantissa x).toNat ≤ 2 ^ leadingOne x - 1 ∧
      bitlen (mantissa x).toNat ≤ leadingOne x) ∧
    (mantissa x).toNat ≤ 2 ^ leadingOne x ∧
    ((mantissa x).toNat = 2 ^ leadingOne x → leadingOne x = 0) ∧
    (leadingOne x ≤ 63 → (mantissa x).toNat ≤ 2 ^ 63 - 1)) ∧
  (∀ i m : Nat, 1 ≤ i → i ≤ 64 → m % 2 = 1 → m ≤ 2 ^ i - 1 →
    ∃ x : Word, leadingOne x = i ∧ (mantissa x).toNat = m) ∧
  (mantissa 0xFFFF_FFFF_FFFF_FFFF#64).toNat = 2 ^ 64 - 1

/-- R125: the mask clears exactly the leading one, and the closed form of the numerator (in the integers). -/
def Obligations.IsolationIdentity : Prop :=
  (∀ x : Word, x ≠ 0 →
    ((mantissaBits x).toNat : Int) = (x.toNat : Int) - 2 ^ (leadingOne x - 1) ∧
    ((mantissa x).toNat : Int) = 2 * (x.toNat : Int) - 2 ^ leadingOne x + 1) ∧
  mantissaBits 0 = 0 ∧ mantissa 0 = 1

/-- R126: the pair (`LO(x)`, `MANT(x)`) determines x, and how. -/
def Obligations.WordFromItsParts : Prop :=
  (∀ x : Word,
    (leadingOne x = 0 → x = 0) ∧
    (1 ≤ leadingOne x → x.toNat = 2 ^ (leadingOne x - 1) + (mantissa x).toNat / 2)) ∧
  (∀ x y : Word, leadingOne x = leadingOne y → mantissa x = mantissa y → x = y)

/-- R64: every representable value is 1 or `p / 2^n`, and has exactly one word, which `encode` gives. -/
def Obligations.ValueEncodingIsABijection : Prop :=
  (∀ x : Word, value x = 1 ∨
    ∃ p n : Nat, 1 ≤ n ∧ n ≤ 64 ∧ p % 2 = 1 ∧ p < 2 ^ n ∧ value x = (p : Rat) / 2 ^ n) ∧
  (∀ x : Word, value x = 1 ↔ x = 0) ∧
  (∀ p n : Nat, 1 ≤ n → n ≤ 64 → p % 2 = 1 → p < 2 ^ n →
    (∀ x : Word, value x = (p : Rat) / 2 ^ n ↔ x = encodeFraction p n) ∧
    (encodeFraction p n).toNat = 2 ^ (n - 1) ||| p >>> 1)

/-- R66, with the extremes it names: `MAX` and `MIN`, their exponent, numerator and value. -/
def Obligations.NamedConstants : Prop :=
  maxWord = 0x0000_0000_0000_0000#64 ∧ leadingOne maxWord = 0 ∧ mantissa maxWord = 1 ∧ value maxWord = 1 ∧
  minWord = 1#64 <<< 63 ∧ leadingOne minWord = 64 ∧ mantissa minWord = 1 ∧ value minWord = 1 / 2 ^ 64 ∧
  (∀ x : Word, value minWord ≤ value x ∧ value x ≤ value maxWord)

/-- Rests on R62, R65 and R67: equal values are equal words, and every value lies in (0, 1]. -/
def Obligations.ValuesAreDistinctInUnitInterval : Prop :=
  (∀ x y : Word, value x = value y ↔ x = y) ∧ (∀ x : Word, 0 < value x ∧ value x ≤ 1)

/-- R68: the unsigned order of raw words is not the order of their values. -/
def Obligations.RawOrderIsNotValueOrder : Prop :=
  (1#64).toNat < (2#64).toNat ∧ value 1#64 = 1 / 2 ∧ value 2#64 = 1 / 4 ∧ value 2#64 < value 1#64 ∧
  (∀ x : Word, (0#64).toNat ≤ x.toNat ∧ value x ≤ value 0#64)

/-! ## LOD and MANT -/

/-- R101 with R100: in every state `LOD` completes; `y` is 0 for the zero word, and else the one number i with
`2^(i-1) <= a < 2^i`, which is `64 - clz64(a)`; nothing else changes. -/
def Obligations.LodGivesLeadingOne : Prop :=
  ∀ (a b : Word) (s : State),
    encode (.lod a b) = 0b000#3 ++ b ++ a ∧
    Completes (.lod a b) s fun t =>
      GivesResult s t ∧ t.y.toNat ≤ 64 ∧ t.y.toNat = 64 - clz64 a ∧
      (a = 0 → t.y.toNat = 0) ∧
      (a ≠ 0 → 1 ≤ t.y.toNat ∧ 2 ^ (t.y.toNat - 1) ≤ a.toNat ∧ a.toNat < 2 ^ t.y.toNat)

/-- R123 with R122: in every state `MANT` completes; bit 0 of `y` is 1, and bit k + 1 is bit k of `a` where that
lies below the leading one, else 0; nothing else changes. -/
def Obligations.MantGivesOddNumerator : Prop :=
  ∀ (a b : Word) (s : State),
    encode (.mant a b) = 0b001#3 ++ b ++ a ∧
    Completes (.mant a b) s fun t =>
      GivesResult s t ∧ t.y.getLsbD 0 = true ∧
      ∀ k, k < 63 → t.y.getLsbD (k + 1) = (a.getLsbD k && decide (k + 1 < leadingOne a))

/-! ## The multiplier -/

/-- R148 with R142: `CMUL` gives the exact product where the exponent sum is at most 63, and `ABSENT` where it is
at least 64; nothing else changes. -/
def Obligations.CmulGivesExactProductOrAbsent : Prop :=
  ∀ (a b : Word) (s : State),
    encode (.cmul a b) = 0b010#3 ++ b ++ a ∧
    (leadingOne a + leadingOne b ≤ 63 →
      Completes (.cmul a b) s fun t =>
        GivesResult s t ∧ value t.y = value a * value b ∧ leadingOne t.y = leadingOne a + leadingOne b) ∧
    (64 ≤ leadingOne a + leadingOne b →
      Completes (.cmul a b) s fun t => GivesNoResult .absent s t)

/-- R150: `MUL` gives the exact product where the exponent sum is at most 63, and reports `PRECISION_ERROR` where it
is at least 64; nothing else changes. -/
def Obligations.MulGivesExactProductOrPrecisionError : Prop :=
  ∀ (a b : Word) (s : State),
    encode (.mul a b) = 0b011#3 ++ b ++ a ∧
    (leadingOne a + leadingOne b ≤ 63 →
      Completes (.mul a b) s fun t =>
        GivesResult s t ∧ value t.y = value a * value b ∧ leadingOne t.y = leadingOne a + leadingOne b) ∧
    (64 ≤ leadingOne a + leadingOne b →
      Completes (.mul a b) s fun t => GivesNoResult .precisionError s t)

/-- R147 and R146: the invariant the source leaves open, clause by clause, and that the composition never carries. -/
def Obligations.ProductBitsNeverReachHighBit : Prop :=
  ∀ a b : Word, leadingOne a + leadingOne b ≤ 63 →
    ∃ y, checkedMul a b = some y ∧
      y = highBit (leadingOne a + leadingOne b) + productBits a b ∧
      y = highBit (leadingOne a + leadingOne b) ||| productBits a b ∧
      highBit (leadingOne a + leadingOne b) &&& productBits a b = 0 ∧
      (leadingOne a + leadingOne b = 0 →
        highBit (leadingOne a + leadingOne b) = 0 ∧ productBits a b = 0 ∧ y = maxWord) ∧
      (1 ≤ leadingOne a + leadingOne b →
        (productBits a b).toNat < (highBit (leadingOne a + leadingOne b)).toNat ∧
        leadingOne y = leadingOne a + leadingOne b ∧
        (mantissa y).toNat = (mantissa a).toNat * (mantissa b).toNat ∧
        (mantissa a).toNat * (mantissa b).toNat < 2 ^ 63 ∧ y.toNat < 2 ^ 63 ∧
        y = encodeFraction ((mantissa a).toNat * (mantissa b).toNat) (leadingOne a + leadingOne b)) ∧
      value y = value a * value b

/-- R149: the laws of `CHECKED_MUL`, one conjunct per law, in the rule's order. -/
def Obligations.CheckedMulLaws : Prop :=
  (∀ a b, (checkedMul a b).isSome = true ↔ leadingOne a + leadingOne b ≤ 63) ∧
  (∀ a b y, checkedMul a b = some y → leadingOne y = leadingOne a + leadingOne b) ∧
  (∀ a b y, checkedMul a b = some y → value y = value a * value b) ∧
  (∀ a b, checkedMul a b = checkedMul b a) ∧
  (∀ b : Word, (b.toNat < 2 ^ 63 → checkedMul maxWord b = some b) ∧
    (2 ^ 63 ≤ b.toNat → checkedMul maxWord b = none)) ∧
  (∀ a b c,
    (((checkedMul a b).bind fun y => checkedMul y c).isSome = true ↔
      leadingOne a + leadingOne b + leadingOne c ≤ 63) ∧
    (((checkedMul b c).bind fun y => checkedMul a y).isSome = true ↔
      leadingOne a + leadingOne b + leadingOne c ≤ 63) ∧
    ((checkedMul a b).bind fun y => checkedMul y c) = (checkedMul b c).bind fun y => checkedMul a y) ∧
  (∀ a b y, checkedMul a b = some y → y.toNat < 2 ^ 63 ∧ leadingOne y ≠ 64 ∧ y ≠ minWord) ∧
  (∀ a b, checkedMul a b = some 0 ↔ a = 0 ∧ b = 0)

/-- R140: the exponent sum is exact over 0..128, so that two `MIN` operands fail. -/
def Obligations.ExponentSumIsExact : Prop :=
  (∀ a b : Word, exponentSum a b = leadingOne a + leadingOne b ∧ exponentSum a b ≤ 128) ∧
  exponentSum minWord minWord = 128 ∧ checkedMul minWord minWord = none

/-! ## The converter

The rounding and the layouts are rules of the spec (R171, R172) which it marks as general knowledge; the statements of
this section rest on them, and so on log entries 6 and 7 (PRESUMED). -/

/-- Rests on R173 and log entries 6 and 7: in every state `CVTD` completes; `y` has sign 0 and is the binary64 pattern nearest to the operand's
value, ties to even, among ALL finite patterns; nothing else changes. -/
def Obligations.CvtdRoundsToNearestEven : Prop :=
  ∀ (a b : Word) (s : State),
    encode (.cvtd a b) = 0b100#3 ++ b ++ a ∧
    Completes (.cvtd a b) s fun t =>
      GivesResult s t ∧ t.y.getLsbD 63 = false ∧ NearestEven64 (value a) t.y

/-- Rests on R174 and log entries 6 and 7: with `HAS_CVTS`, `CVTS` completes; `y` is the zero-extended binary32 pattern nearest to the operand's
value, ties to even (one rounding of the exact value); without it, `ILLEGAL_OP`; nothing else changes. -/
def Obligations.CvtsRoundsToNearestEvenOrIsIllegal : Prop :=
  ∀ (a b : Word) (s : State),
    encode (.cvts a b) = 0b101#3 ++ b ++ a ∧
    (s.params.hasCvts = true →
      Completes (.cvts a b) s fun t =>
        GivesResult s t ∧
        ∃ f : BitVec 32, t.y = f.setWidth 64 ∧ f.getLsbD 31 = false ∧ NearestEven32 (value a) f) ∧
    (s.params.hasCvts = false →
      Completes (.cvts a b) s fun t => GivesNoResult .illegalOp s t)

/-- Rests on R175 and log entries 6 and 7: every converted pattern has sign 0, is normal, and lies in [2^-64, 1]; when it is exactly 1.0. -/
def Obligations.ConversionRange : Prop :=
  (∀ x : Word,
    (cvt64 x).getLsbD 63 = false ∧ 959 ≤ exponent64 (cvt64 x) ∧ exponent64 (cvt64 x) ≤ 1023 ∧
    1 / 2 ^ 64 ≤ float64Value (cvt64 x) ∧ float64Value (cvt64 x) ≤ 1 ∧
    (cvt32 x).getLsbD 31 = false ∧ 63 ≤ exponent32 (cvt32 x) ∧ exponent32 (cvt32 x) ≤ 127 ∧
    1 / 2 ^ 64 ≤ float32Value (cvt32 x) ∧ float32Value (cvt32 x) ≤ 1 ∧
    (roundNumerator 53 (mantissa x).toNat = { sig := 2 ^ 52, len := leadingOne x + 1 } →
      cvt64 x = 0x3FF0_0000_0000_0000#64) ∧
    (roundNumerator 24 (mantissa x).toNat = { sig := 2 ^ 23, len := leadingOne x + 1 } →
      cvt32 x = 0x3F80_0000#32)) ∧
  cvt64 0 = 0x3FF0_0000_0000_0000#64 ∧ cvt32 0 = 0x3F80_0000#32 ∧
  cvt64 0xFFFF_FFFF_FFFF_FFFF#64 = 0x3FF0_0000_0000_0000#64 ∧
  cvt64 0x7FFF_FFFF_FFFF_FFFF#64 = 0x3FF0_0000_0000_0000#64 ∧
  cvt32 0xFFFF_FFFF_FFFF_FFFF#64 = 0x3F80_0000#32 ∧ cvt32 0x7FFF_FFFF_FFFF_FFFF#64 = 0x3F80_0000#32

/-- Rests on R176 and log entries 6 and 7: a conversion is exact exactly when the numerator fits the significand, in particular when `LO(x) <= P`. -/
def Obligations.ConversionExactness : Prop :=
  ∀ x : Word,
    (float64Value (cvt64 x) = value x ↔ bitlen (mantissa x).toNat ≤ 53) ∧
    (leadingOne x ≤ 53 → float64Value (cvt64 x) = value x) ∧
    (float32Value (cvt32 x) = value x ↔ bitlen (mantissa x).toNat ≤ 24) ∧
    (leadingOne x ≤ 24 → float32Value (cvt32 x) = value x)

/-- Rests on R177 and log entries 6 and 7: the discarded bits are odd, so a tie discards exactly one bit; both tie outcomes occur. -/
def Obligations.ConversionTies : Prop :=
  (∀ (x : Word) (P : Nat), 1 ≤ discardCount P (mantissa x).toNat →
    discardedBits P (mantissa x).toNat % 2 = 1 ∧
    (discardedBits P (mantissa x).toNat = 1 <<< (discardCount P (mantissa x).toNat - 1) →
      discardCount P (mantissa x).toNat = 1 ∧ bitlen (mantissa x).toNat = P + 1)) ∧
  cvt64 0x0030_0000_0000_0000#64 = 0x3FE0_0000_0000_0000#64 ∧
  cvt64 0x0030_0000_0000_0001#64 = 0x3FE0_0000_0000_0002#64 ∧
  cvt32 0x0180_0000#64 = 0x3F00_0000#32 ∧ cvt32 0x0180_0001#64 = 0x3F00_0002#32

/-- Rests on R179 and log entries 6 and 7: a word with a single set bit converts to that power of two, and the zero word to 1.0. -/
def Obligations.PowersOfTwoConvertExactly : Prop :=
  (∀ k : Nat, 1 ≤ k → k ≤ 64 → float64Value (cvt64 (1#64 <<< (k - 1))) = 1 / 2 ^ k) ∧
  float64Value (cvt64 0) = 1

/-! ## The reserved codes -/

/-- R203: the reserved codes, and `CVTS` without `HAS_CVTS`, report `ILLEGAL_OP` whatever the operands are, and
change nothing else; no other op code reports it. -/
def Obligations.ReservedCodesReportIllegalOp : Prop :=
  (∀ (a b : Word) (s : State),
    encode (.reserved110 a b) = 0b110#3 ++ b ++ a ∧
    Completes (.reserved110 a b) s (fun t => GivesNoResult .illegalOp s t) ∧
    encode (.reserved111 a b) = 0b111#3 ++ b ++ a ∧
    Completes (.reserved111 a b) s (fun t => GivesNoResult .illegalOp s t) ∧
    (s.params.hasCvts = false → Completes (.cvts a b) s (fun t => GivesNoResult .illegalOp s t))) ∧
  (∀ s t, step s = .next t → (t.status = Status.illegalOp.code ↔ SelectsNothing s))

/-! ## The step and the whole machine -/

/-- Rests on R70, R72, R76 and R235: a step evaluates the instruction the command word on the ports decodes to, and a
command placed from outside is the next one evaluated. -/
def Obligations.StepEvaluatesDecodedCommand : Prop :=
  (∀ (s : State) (i : Instr), decode (s.op ++ s.b ++ s.a) = i → step s = exec i s) ∧
  (∀ (s : State) (w : CommandWord),
    step (s.withFetchWord 136 w.toNat) =
      exec (decode w) { s with op := (cmdOfWord w).op, a := (cmdOfWord w).a, b := (cmdOfWord w).b })

/-- R200: every command ends in exactly one of the four outcomes, the one `eval` gives, each with its status. -/
def Obligations.EveryCommandEndsInOneOutcome : Prop :=
  ∀ s : State, ∃ t, step s = .next t ∧
    ((∃ y, eval s.params s.cmd = .ok y ∧ t.y = y ∧ t.status = 0b00#2) ∨
     (eval s.params s.cmd = .absent ∧ t.status = 0b01#2) ∨
     (eval s.params s.cmd = .fault .precisionError ∧ t.status = 0b10#2) ∨
     (eval s.params s.cmd = .fault .illegalOp ∧ t.status = 0b11#2))

/-- R204: which commands always end `OK`, when the multiplications do, and that a fault has no other cause than
the op code or `MUL`'s exponent sum. -/
def Obligations.NoOtherOutcome : Prop :=
  ∀ s : State, ∃ t, step s = .next t ∧
    (s.op = 0b000#3 ∨ s.op = 0b001#3 ∨ s.op = 0b100#3 ∨ (s.op = 0b101#3 ∧ s.params.hasCvts = true) →
      t.status = Status.ok.code) ∧
    (s.op = 0b010#3 ∨ s.op = 0b011#3 → leadingOne s.a + leadingOne s.b ≤ 63 → t.status = Status.ok.code) ∧
    (NoFault t ↔ ¬ SelectsNothing s ∧ ¬ (s.op = 0b011#3 ∧ Overflows s))

/-- Rests on R23, R74, R204, R230 and R235: after every step, from ANY state, the outputs are those of the inputs
present, port by port, and those inputs and the parameters are as before; in particular every step keeps this. -/
def Obligations.StepLeavesOutputsFollowingInputs : Prop :=
  ∀ s t : State, step s = .next t → Settled t ∧ t.cmd = s.cmd ∧ t.params = s.params

/-- Rests on R230: the outputs after power-on are those of the inputs present.  The inputs at reset (`LOD 0`) are the
model's choice, log entry 3. -/
def Obligations.OutputsFollowInputsAtReset : Prop :=
  Settled State.reset

/-- Rests on R70, R72 and R75: decode and encode agree, with every operand at every value and for every command
word. -/
def Obligations.DecodeEncodeRoundTrip : Prop :=
  (∀ i : Instr, decode (encode i) = i) ∧ (∀ w : CommandWord, encode (decode w) = w)

/-- Rests on R73: `b` has no effect on any output of the unary commands, and the reserved codes read neither
operand.  Two clauses rest on the model's choice of log entry 2 (DESIGN CHOICE) and on no rule: that `y` is the same
also where there is no result (the reserved codes, and `CVTS` without `HAS_CVTS`), which R205 leaves a free draw and
which the model draws by the counter `draws` alone; and that `draws`, the model's own field, is the same. -/
def Obligations.UnreadOperandsHaveNoEffect : Prop :=
  ∀ (s : State) (op : BitVec 3) (a a' b b' : Word),
    op ≠ 0b010#3 → op ≠ 0b011#3 → (op ≠ 0b110#3 → op ≠ 0b111#3 → a = a') →
    ∃ t t', step (s.present { op := op, a := a, b := b }) = .next t ∧
      step (s.present { op := op, a := a', b := b' }) = .next t' ∧
      t.y = t'.y ∧ t.status = t'.status ∧ t.draws = t'.draws

/-- R20 and R45: the outcome of a command depends on its inputs and the parameters alone, whatever came before it and
whatever the outputs show; under a status other than `OK` there is no result to compare. -/
def Obligations.OutcomeIndependentOfHistory : Prop :=
  ∀ s s' : State, s.cmd = s'.cmd → s.params = s'.params →
    ∃ t t', step s = .next t ∧ step s' = .next t' ∧
      t.status = t'.status ∧ (t.status = Status.ok.code → t.y = t'.y) ∧
      t.status = (eval s.params s.cmd).status.code

/-- Rests on R43 and R209: repeating a command gives the same outcome, also after a fault. -/
def Obligations.RepeatedCommandGivesSameOutcome : Prop :=
  ∀ s : State, ∃ t u, step s = .next t ∧ step t = .next u ∧
    u.status = t.status ∧ (t.status = Status.ok.code → u = t)

/-- Rests on R234 and R41: the outcome is the same for every `LATENCY` and every `HOST_BYTE_ORDER`. -/
def Obligations.OutcomeIndependentOfLatency : Prop :=
  ∀ (p q : Params) (c : Cmd), p.hasCvts = q.hasCvts → eval p c = eval q c

/-- Rests on R20, R24, R43 and R208: no instruction changes the inputs or the parameters, and only an outcome without
a result draws a free word (the draw counter is the model's own, log entry 2). -/
def Obligations.CommandsChangeOutputsOnly : Prop :=
  ∀ (i : Instr) (s t : State), exec i s = .next t →
    t.op = s.op ∧ t.a = s.a ∧ t.b = s.b ∧ t.params = s.params ∧
    (t.status = Status.ok.code → t.draws = s.draws) ∧
    (t.status ≠ Status.ok.code → t.draws = s.draws + 1)

/-- Rests on R28 and R29: the block routes the operands to its units and selects `y` by `op`; the 7-bit position
port loses nothing.  Where the multiplier has no result its port `p` is the free word of log entry 2. -/
def Obligations.UnitsDriveTheOutputs : Prop :=
  (∀ x : Word, (lodUnit x).toNat = leadingOne x) ∧
  (∀ s : State, ∃ t, step s = .next t ∧
    (s.op = 0b000#3 → t.y = (lodUnit s.a).setWidth 64) ∧
    (s.op = 0b001#3 → t.y = mexUnit s.a) ∧
    (s.op = 0b010#3 ∨ s.op = 0b011#3 →
      dmulUnit (Config.freeWord s.draws) s.a s.b = (decide (t.status = Status.ok.code), t.y)) ∧
    (s.op = 0b100#3 → t.y = fcvtUnit s.a false) ∧
    (s.op = 0b101#3 → s.params.hasCvts = true → t.y = fcvtUnit s.a true))

/-- Rests on R70, R72 and the command words of 95_test_vectors.md section 3: one word of each op code, read from
the opcode table's numbering. -/
def Obligations.CommandWordsDecode : Prop :=
  decodeTableWord 136 0x0_0000_0000_0000_0000_0000_0000_0000_004A = some (.lod 0x4A 0) ∧
  decodeTableWord 136 0x1_0000_0000_0000_0000_0000_0000_0000_004A = some (.mant 0x4A 0) ∧
  decodeTableWord 136 0x2_0000_0000_0000_000B_0000_0000_0000_0005 = some (.cmul 0x5 0xB) ∧
  decodeTableWord 136 0x3_0000_0000_0000_0000_8000_0000_0000_0000 = some (.mul 0x8000_0000_0000_0000 0) ∧
  decodeTableWord 136 0x4_0000_0000_0000_0000_0000_0000_0000_0004 = some (.cvtd 4 0) ∧
  decodeTableWord 136 0x5_0000_0000_0000_0000_0000_0000_0000_0004 = some (.cvts 4 0) ∧
  decodeTableWord 136 0x6_0000_0000_0000_0005_0000_0000_0000_0005 = some (.reserved110 5 5) ∧
  decodeTableWord 136 0x7_0000_0000_0000_000B_0000_0000_0000_0005 = some (.reserved111 5 0xB)

/-- Rests on R230: a block with `LATENCY` = 0 shows, from power-on, the outputs of the inputs present; the reset state
is such a block with the inputs of log entry 3. -/
def Obligations.PowerOnOutputs : Prop :=
  (∀ (p : Params) (c : Cmd), p.latency = 0 → Settled (State.powerOn p c) ∧ (State.powerOn p c).cmd = c) ∧
  State.reset = State.powerOn Params.reference { op := 0b000#3, a := 0, b := 0 }
end

