-- ==== Sys2Proof/Laws/State.lean ====
section
/-! SUPPORT. One lemma per field per update of State, and what each shared operation on the ports does. -/

namespace Sys2Proof.Laws

open Sys2Proof.Machine

section Present
variable (s : State) (c : Cmd)

@[simp] theorem present_op : (s.present c).op = c.op := rfl
@[simp] theorem present_a : (s.present c).a = c.a := rfl
@[simp] theorem present_b : (s.present c).b = c.b := rfl
@[simp] theorem present_y : (s.present c).y = s.y := rfl
@[simp] theorem present_status : (s.present c).status = s.status := rfl
@[simp] theorem present_params : (s.present c).params = s.params := rfl
@[simp] theorem present_draws : (s.present c).draws = s.draws := rfl
@[simp] theorem present_cmd : (s.present c).cmd = c := rfl
@[simp] theorem present_instr : (s.present c).instr = decodeCmd c := rfl

end Present

section Complete
variable (s : State) (o : CmdOutcome)

@[simp] theorem complete_op : (s.complete o).op = s.op := rfl
@[simp] theorem complete_a : (s.complete o).a = s.a := rfl
@[simp] theorem complete_b : (s.complete o).b = s.b := rfl
@[simp] theorem complete_params : (s.complete o).params = s.params := rfl
@[simp] theorem complete_cmd : (s.complete o).cmd = s.cmd := rfl
@[simp] theorem complete_instr : (s.complete o).instr = s.instr := rfl
@[simp] theorem complete_status : (s.complete o).status = o.status.code := rfl
@[simp] theorem complete_y : (s.complete o).y = o.word (Config.freeWord s.draws) := rfl
@[simp] theorem complete_draws : (s.complete o).draws = s.draws + o.drawCount := rfl

end Complete

/-- Under `OK` an evaluation changes `y` and `status` only. -/
theorem complete_ok (s : State) (y : Word) :
    s.complete (.ok y) = { s with y := y, status := Status.ok.code } := rfl

/-- Under every other status it also draws the free word that `y` then is (R205). -/
theorem complete_without_word (s : State) (o : CmdOutcome) (h : ∀ y, o ≠ .ok y) :
    s.complete o =
      { s with y := Config.freeWord s.draws, status := o.status.code, draws := s.draws + 1 } := by
  cases o with
  | ok y => exact absurd rfl (h y)
  | absent => rfl
  | fault f => rfl

/-- The status codes are distinct (R74). -/
@[simp] theorem code_eq_iff (p q : Status) : p.code = q.code ↔ p = q := by
  cases p <;> cases q <;> decide

/-- Everything an instruction can do: its outcome appears on the output ports (R31). -/
theorem exec_eq_complete (i : Instr) (s : State) : exec i s = .next (s.complete (outcomeOf s.params i)) := by
  cases i <;> rfl

/-- Everything a step can do. -/
theorem step_eq_complete (s : State) : step s = .next (s.complete (outcomeOf s.params s.instr)) :=
  exec_eq_complete s.instr s

end Sys2Proof.Laws
end

