-- ==== Sys2Proof/Machine/Driver.lean ====
section
/-! DEFINITION. A host driving the block, in the notation of 95_test_vectors.md section 3.1 (60_exceptions.md R209;
30_encoding.md R77, R78).  The host is no part of the block: nothing here is used by `step`. -/

namespace Sys2Proof.Driver

open Sys2Proof.Machine

/-- The run state of a host program (section 3.1). -/
inductive RunState where
  | running
  | halted
  | faulted
  deriving DecidableEq, Repr

/-- The host state (section 3.1): registers `h0` to `h7`, the last status `hs`, the word memory `hm[0..15]`, the
statement pointer, the run state; and the block it drives. -/
structure HostState where
  h : Vector Word 8
  hs : BitVec 2
  hm : Vector Word 16
  pointer : Nat
  run : RunState
  block : State
  deriving DecidableEq, Repr

/-- The statements of section 3.1.  A label stands as the index of its statement (log entry 10). -/
inductive Stmt where
  /-- `OP hd, ha[, hb]` and `.op 0b<3 bits> hd, ha, hb` (R77): drive a command on the block. -/
  | command (op : BitVec 3) (hd ha : Fin 8) (hb : Option (Fin 8))
  /-- `LI hd, imm`. -/
  | li (hd : Fin 8) (imm : Word)
  /-- `ADDI hd, ha, imm`. -/
  | addi (hd ha : Fin 8) (imm : Word)
  /-- `ST ha, hb`: `hm[h[hb]] <- h[ha]`. -/
  | st (ha hb : Fin 8)
  /-- `JNOK label`: jump if `hs != OK`. -/
  | jnok (target : Nat)
  /-- `BLT ha, imm, label`: jump if `h[ha] < imm`, unsigned (R8). -/
  | blt (ha : Fin 8) (imm : Word) (target : Nat)
  /-- `JMP label`. -/
  | jmp (target : Nat)
  /-- `HALT`: the normal end. -/
  | halt
  deriving DecidableEq, Repr

/-- Why the host does not go on. -/
inductive Stop where
  /-- The run is halted or faulted; it never runs again (R209). -/
  | notRunning
  /-- The statement pointer is past the last statement; the notation is silent there (log entry 10).  Safe. -/
  | noStatement
  /-- `ST` outside `hm[0..15]`; the notation is silent there (log entry 10).  Safe. -/
  | noMemoryWord
  /-- The block answered no next state; it always answers one, so this is never reached.  Safe. -/
  | blockStopped
  deriving DecidableEq, Repr

/-- Go on with the next statement. -/
def advance (s : HostState) : HostState :=
  { s with pointer := s.pointer + 1 }

/-- Go on at statement `target` if `taken`, else with the next one. -/
def branch (taken : Bool) (target : Nat) (s : HostState) : HostState :=
  if taken then { s with pointer := target } else advance s

/-- What the host does with the outputs of an evaluated command (section 3.1, R201, R202, R209): keep `y` under
`OK`, go on under `ABSENT`, stop for good under a fault. -/
def receive (hd : Fin 8) (t : State) (s : HostState) : HostState :=
  if t.status = Status.ok.code then
    advance { s with hs := t.status, h := s.h.set hd t.y, block := t }
  else if t.status = Status.absent.code then
    advance { s with hs := t.status, block := t }
  else
    { s with hs := t.status, run := .faulted, block := t }

/-- Drive one command on the block and receive its outputs; `b` is 0 where the statement names none. -/
def issue (op : BitVec 3) (hd ha : Fin 8) (hb : Option (Fin 8)) (s : HostState) : Except Stop HostState :=
  let b : Word := match hb with
    | some r => s.h[r]
    | none => 0
  match step (s.block.present { op := op, a := s.h[ha], b := b }) with
  | .next t => .ok (receive hd t s)
  | .fault _ => .error .blockStopped
  | .refused _ => .error .blockStopped

/-- `ST ha, hb`. -/
def store (ha hb : Fin 8) (s : HostState) : Except Stop HostState :=
  if inside : (s.h[hb]).toNat < 16 then
    .ok (advance { s with hm := s.hm.set (s.h[hb]).toNat s.h[ha] })
  else
    .error .noMemoryWord

/-- One statement. -/
def execStmt (c : Stmt) (s : HostState) : Except Stop HostState :=
  match c with
  | .command op hd ha hb => issue op hd ha hb s
  | .li hd imm => .ok (advance { s with h := s.h.set hd imm })
  | .addi hd ha imm => .ok (advance { s with h := s.h.set hd (s.h[ha] + imm) })
  | .st ha hb => store ha hb s
  | .jnok target => .ok (branch (decide (s.hs ≠ Status.ok.code)) target s)
  | .blt ha imm target => .ok (branch (decide ((s.h[ha]).toNat < imm.toNat)) target s)
  | .jmp target => .ok (branch true target s)
  | .halt => .ok { s with run := .halted }

/-- One step of a host program: a run that is not `running` stays as it is, for good (R209). -/
def hostStep (prog : List Stmt) (s : HostState) : Except Stop HostState :=
  if s.run = .running then
    match prog[s.pointer]? with
    | some c => execStmt c s
    | none => .error .noStatement
  else
    .error .notRunning

/-- The start state of section 3: "registers and memory not listed in the start state are 0". -/
def HostState.start : HostState :=
  { h := Vector.replicate 8 0, hs := Status.ok.code, hm := Vector.replicate 16 0, pointer := 0, run := .running,
    block := State.reset }

/-- The string the host renders from `MANT` and `LOD` for `DBG a`, in decimal (R78, 91_not_in_source.md N10). -/
def dbgString (a : Word) : String :=
  "Dyadra(" ++ toString (mantissa a).toNat ++ "/2^" ++ toString (leadingOne a) ++ ")"

end Sys2Proof.Driver
end

