-- ==== Sys2Proof/Laws/Driver.lean ====
section
/-! SUPPORT. The duties of the host after a fault (60_exceptions.md R209), kept by the host notation. -/

namespace Sys2Proof.Laws

open Sys2Proof.Machine Sys2Proof.Driver

/-- "The fault mark is never cleared" (R209): a faulted run has no further step. -/
theorem hostStep_faulted (prog : List Stmt) (s : HostState) (h : s.run = .faulted) :
    hostStep prog s = .error .notRunning := by
  simp [hostStep, h]

/-- Driving a command always gets an answer from the block. -/
theorem issue_eq_receive (op : BitVec 3) (hd ha : Fin 8) (hb : Option (Fin 8)) (s : HostState) :
    ∃ c, issue op hd ha hb s =
      .ok (receive hd ((s.block.present c).complete (eval s.block.params c)) s) := by
  refine ⟨{ op := op, a := s.h[ha], b := match hb with | some r => s.h[r] | none => 0 }, ?_⟩
  simp only [issue, step_eq_complete]
  rfl

/-- `y` is not used under a status other than `OK` (R205, R209): the registers stay as they were. -/
theorem receive_keeps_registers (hd : Fin 8) (t : State) (s : HostState) (h : t.status ≠ Status.ok.code) :
    (receive hd t s).h = s.h := by
  rw [receive, if_neg h]
  split <;> rfl

/-- After `PRECISION_ERROR` the host ends its computation (R209). -/
theorem receive_precisionError (hd : Fin 8) (t : State) (s : HostState)
    (h : t.status = Status.precisionError.code) : (receive hd t s).run = .faulted := by
  rw [receive, if_neg (by rw [h]; decide), if_neg (by rw [h]; decide)]

end Sys2Proof.Laws
end

