-- ==== Sys2Proof/Laws/Operands.lean ====
section
/-! SUPPORT. What `bitlen`, the leading-one position, the mask and the numerator are, in arithmetic terms: one lemma
per operation for the proofs to cite instead of unfolding it. -/

namespace Sys2Proof.Laws

open Sys2Proof.Machine

@[simp] theorem bitlen_zero : bitlen 0 = 0 := rfl

/-- `bitlen` is the least k with `v < 2^k` (R8). -/
theorem bitlen_le_iff (v k : Nat) : bitlen v ≤ k ↔ v < 2 ^ k := by
  unfold bitlen
  split
  · subst_vars; simp
  · next h => rw [Nat.succ_le_iff, Nat.log2_lt h]

theorem lt_two_pow_bitlen (v : Nat) : v < 2 ^ bitlen v :=
  (bitlen_le_iff v _).mp le_rfl

theorem lt_bitlen_iff (v k : Nat) : k < bitlen v ↔ 2 ^ k ≤ v := by
  rw [← not_le, bitlen_le_iff, not_lt]

theorem bitlen_pos_iff (v : Nat) : 0 < bitlen v ↔ v ≠ 0 := by
  rw [lt_bitlen_iff]; simp [Nat.one_le_iff_ne_zero]

theorem two_pow_pred_bitlen_le {v : Nat} (h : v ≠ 0) : 2 ^ (bitlen v - 1) ≤ v := by
  have := (bitlen_pos_iff v).mpr h
  exact (lt_bitlen_iff v _).mp (by omega)

/-- `bitlen` is pinned down by its two bounds. -/
theorem bitlen_eq_of_bounds {v k : Nat} (lo : 2 ^ k ≤ v) (hi : v < 2 ^ (k + 1)) : bitlen v = k + 1 := by
  have := (lt_bitlen_iff v k).mpr lo
  have := (bitlen_le_iff v (k + 1)).mpr hi
  omega

theorem satSub_eq (a b : Nat) : satSub a b = a - b := by
  unfold satSub; split <;> omega

/-- The scan from the top finds the length of the low part of the word. -/
theorem leadingZerosBelow_eq (x : Word) (k : Nat) :
    leadingZerosBelow x k = k - bitlen (x.toNat % 2 ^ k) := by
  induction k with
  | zero => simp [leadingZerosBelow]
  | succ k ih =>
    have hmod : x.toNat % 2 ^ (k + 1) = x.toNat % 2 ^ k + 2 ^ k * (x.toNat / 2 ^ k % 2) := by
      rw [pow_succ, Nat.mod_mul]
    have hbit : x.getLsbD k = decide (x.toNat / 2 ^ k % 2 = 1) := by
      rw [BitVec.getLsbD, Nat.testBit_eq_decide_div_mod_eq]
    have hlow : x.toNat % 2 ^ k < 2 ^ k := Nat.mod_lt _ (by positivity)
    have hlen := (bitlen_le_iff (x.toNat % 2 ^ k) k).mpr hlow
    simp only [leadingZerosBelow, hbit, decide_eq_true_eq]
    split
    · next h =>
      have : bitlen (x.toNat % 2 ^ (k + 1)) = k + 1 :=
        bitlen_eq_of_bounds (by rw [hmod, h]; omega) (Nat.mod_lt _ (by positivity))
      omega
    · next h =>
      have : x.toNat / 2 ^ k % 2 = 0 := by omega
      simp only [hmod, this, ih, Nat.mul_zero, Nat.add_zero]
      omega

/-- The leading-one position is the bit length of the word (R102). -/
theorem leadingOne_eq_bitlen (x : Word) : leadingOne x = bitlen x.toNat := by
  have h : x.toNat % 2 ^ 64 = x.toNat := Nat.mod_eq_of_lt x.isLt
  have := (bitlen_le_iff x.toNat 64).mpr x.isLt
  rw [leadingOne, clz64, leadingZerosBelow_eq, h]
  omega

theorem leadingOne_le (x : Word) : leadingOne x ≤ 64 := Nat.sub_le _ _

theorem leadingOne_eq_zero_iff (x : Word) : leadingOne x = 0 ↔ x = 0 := by
  have h := bitlen_pos_iff x.toNat
  rw [leadingOne_eq_bitlen]
  constructor
  · intro h0
    exact BitVec.eq_of_toNat_eq (by simp; omega)
  · rintro rfl; rfl

theorem lt_two_pow_leadingOne (x : Word) : x.toNat < 2 ^ leadingOne x := by
  rw [leadingOne_eq_bitlen]; exact lt_two_pow_bitlen _

theorem two_pow_pred_leadingOne_le {x : Word} (h : x ≠ 0) : 2 ^ (leadingOne x - 1) ≤ x.toNat := by
  rw [leadingOne_eq_bitlen]
  exact two_pow_pred_bitlen_le (fun h0 => h (BitVec.eq_of_toNat_eq (by simpa using h0)))

/-- The mask as a number: `2^(i-1) - 1`, and 0 for `i = 0` (R121). -/
theorem mask_toNat {i : Nat} (h : i ≤ 64) : (mask i).toNat = 2 ^ (i - 1) - 1 := by
  have h1 : 2 ^ (i - 1) < 2 ^ 64 := Nat.pow_lt_pow_right (by omega) (by omega)
  have h2 : 0 < 2 ^ (i - 1) := by positivity
  rw [mask, maskWidth, satSub_eq, BitVec.toNat_sub, BitVec.toNat_shiftLeft, Nat.shiftLeft_eq]
  simp only [BitVec.toNat_ofNat]
  omega

/-- The mask keeps what is below the leading one (R125). -/
theorem mantissaBits_toNat (x : Word) : (mantissaBits x).toNat = x.toNat % 2 ^ (leadingOne x - 1) := by
  rw [mantissaBits, BitVec.toNat_and, mask_toNat (leadingOne_le x), Nat.and_two_pow_sub_one_eq_mod]

/-- Subtracting the leading one leaves the mantissa bits (R125). -/
theorem mantissaBits_add {x : Word} (h : x ≠ 0) :
    (mantissaBits x).toNat + 2 ^ (leadingOne x - 1) = x.toNat := by
  have lo := two_pow_pred_leadingOne_le h
  have hi := lt_two_pow_leadingOne x
  have hpos : leadingOne x ≠ 0 := fun h0 => h ((leadingOne_eq_zero_iff x).mp h0)
  have hdouble : 2 ^ leadingOne x = 2 * 2 ^ (leadingOne x - 1) := by
    rw [← pow_succ']; congr 1; omega
  rw [mantissaBits_toNat, Nat.mod_eq_sub_mod lo, Nat.mod_eq_of_lt (by omega)]
  omega

/-- The numerator is one more than twice the mantissa bits; no bit is lost (R122). -/
theorem mantissa_toNat (x : Word) : (mantissa x).toNat = 2 * (mantissaBits x).toNat + 1 := by
  have hk : 2 ^ (leadingOne x - 1) ≤ 2 ^ 63 :=
    Nat.pow_le_pow_right (by omega) (by have := leadingOne_le x; omega)
  have hlt : (mantissaBits x).toNat < 2 ^ (leadingOne x - 1) := by
    rw [mantissaBits_toNat]; exact Nat.mod_lt _ (by positivity)
  have hshift : (mantissaBits x).toNat <<< 1 % 2 ^ 64 = 2 * (mantissaBits x).toNat := by
    rw [Nat.shiftLeft_eq]; omega
  rw [mantissa, BitVec.toNat_or, BitVec.toNat_shiftLeft, hshift]
  have := Nat.two_pow_add_eq_or_of_lt (i := 1) (b := 1) (by omega) (mantissaBits x).toNat
  simpa using this.symm

theorem mantissa_odd (x : Word) : (mantissa x).toNat % 2 = 1 := by
  rw [mantissa_toNat]; omega

/-- The numerator is `2x - 2^LO(x) + 1` (R125), said without subtraction. -/
theorem mantissa_add {x : Word} (h : x ≠ 0) :
    (mantissa x).toNat + 2 ^ leadingOne x = 2 * x.toNat + 1 := by
  have hpos : leadingOne x ≠ 0 := fun h0 => h ((leadingOne_eq_zero_iff x).mp h0)
  have hdouble : 2 ^ leadingOne x = 2 * 2 ^ (leadingOne x - 1) := by
    rw [← pow_succ']; congr 1; omega
  have := mantissaBits_add h
  rw [mantissa_toNat]
  omega

end Sys2Proof.Laws
end

