-- ==== Sys2Proof/Laws/FloatConvert.lean ====
section
/-! SUPPORT. What the rounding step of the converter computes and where its fields stand in the pattern. -/

namespace Sys2Proof.Laws

open Sys2Proof.Machine

theorem discardedBits_eq (P m : Nat) : discardedBits P m = m % 2 ^ discardCount P m := by
  rw [discardedBits, Nat.shiftLeft_eq, one_mul, Nat.and_two_pow_sub_one_eq_mod]

theorem truncatedSig_eq (P m : Nat) : truncatedSig P m = m / 2 ^ discardCount P m := by
  rw [truncatedSig, Nat.shiftRight_eq_div_pow]

/-- Rounding by cases, with half the weight of the last kept bit named: up when the discarded bits exceed it or a tie
meets an odd significand, down otherwise. -/
theorem roundedSig_cases {P m half : Nat} (hhalf : half = 2 ^ (discardCount P m - 1)) :
    (roundedSig P m = truncatedSig P m + 1 ∧
      (half < discardedBits P m ∨ (discardedBits P m = half ∧ truncatedSig P m % 2 = 1))) ∨
    (roundedSig P m = truncatedSig P m ∧
      (discardedBits P m < half ∨ (discardedBits P m = half ∧ truncatedSig P m % 2 = 0))) := by
  have hup : roundsUp P m =
      (decide (half < discardedBits P m) ||
        (decide (discardedBits P m = half) && decide (truncatedSig P m % 2 = 1))) := by
    rw [roundsUp, Nat.shiftLeft_eq, one_mul, ← hhalf, Nat.testBit_zero]
  rw [roundedSig, hup]
  rcases Nat.lt_trichotomy (discardedBits P m) half with h | h | h
  · exact .inr (by simp [h.ne, h.not_gt]; omega)
  · rcases Nat.mod_two_eq_zero_or_one (truncatedSig P m) with h' | h'
    · exact .inr (by simp [h, h'])
    · exact .inl (by simp [h, h'])
  · exact .inl (by simp [h])

/-- Numerator, kept part and discarded part. -/
theorem truncatedSig_add_discardedBits (P m : Nat) :
    truncatedSig P m * 2 ^ discardCount P m + discardedBits P m = m := by
  rw [truncatedSig_eq, discardedBits_eq, mul_comm]
  exact Nat.div_add_mod _ _

theorem roundedSig_bounds {P m : Nat} (hP : 1 ≤ P) (h : P < bitlen m) :
    2 ^ (P - 1) ≤ roundedSig P m ∧ roundedSig P m ≤ 2 ^ P := by
  have hi := lt_two_pow_bitlen m
  have lo := two_pow_pred_bitlen_le (v := m) (by rintro rfl; simp at h)
  have e1 : 2 ^ bitlen m = 2 ^ P * 2 ^ discardCount P m := by
    rw [← pow_add]; congr 1; rw [discardCount]; omega
  have e2 : 2 ^ (bitlen m - 1) = 2 ^ (P - 1) * 2 ^ discardCount P m := by
    rw [← pow_add]; congr 1; rw [discardCount]; omega
  have t1 : truncatedSig P m < 2 ^ P := by
    rw [truncatedSig_eq, Nat.div_lt_iff_lt_mul (by positivity)]; omega
  have t2 : 2 ^ (P - 1) ≤ truncatedSig P m := by
    rw [truncatedSig_eq, Nat.le_div_iff_mul_le (by positivity)]; omega
  rw [roundedSig]
  split <;> omega

/-- Everything the rounding step can do (R172): exact; rounded; rounded with a carry out. -/
theorem roundNumerator_cases {P m : Nat} (hP : 1 ≤ P) :
    (bitlen m ≤ P ∧ roundNumerator P m = { sig := m * 2 ^ (P - bitlen m), len := bitlen m }) ∨
    (P < bitlen m ∧ roundedSig P m < 2 ^ P ∧
      roundNumerator P m = { sig := roundedSig P m, len := bitlen m }) ∨
    (P < bitlen m ∧ roundedSig P m = 2 ^ P ∧
      roundNumerator P m = { sig := 2 ^ (P - 1), len := bitlen m + 1 }) := by
  rw [roundNumerator, Nat.shiftLeft_eq, Nat.shiftLeft_eq, one_mul, Nat.shiftRight_eq_div_pow, pow_one]
  split
  · next h => exact .inl ⟨h, rfl⟩
  · next h =>
    have hb := roundedSig_bounds hP (by omega : P < bitlen m)
    split
    · next hc =>
      have hhalf : 2 ^ P / 2 = 2 ^ (P - 1) := by
        rw [show P = P - 1 + 1 by omega, pow_succ, Nat.mul_div_cancel _ (by omega)]; rfl
      exact .inr (.inr ⟨by omega, hc, by rw [hc, hhalf]⟩)
    · next hc => exact .inr (.inl ⟨by omega, by omega, rfl⟩)

/-- The significand has exactly `P` bits. -/
theorem roundNumerator_sig_bounds {P m : Nat} (hP : 1 ≤ P) (hm : m ≠ 0) :
    2 ^ (P - 1) ≤ (roundNumerator P m).sig ∧ (roundNumerator P m).sig < 2 ^ P := by
  have hi := lt_two_pow_bitlen m
  have lo := two_pow_pred_bitlen_le hm
  have hpos := (bitlen_pos_iff m).mpr hm
  have hlt : 2 ^ (P - 1) < 2 ^ P := Nat.pow_lt_pow_right (by omega) (by omega)
  rcases roundNumerator_cases (m := m) hP with ⟨h, e⟩ | ⟨h, hq, e⟩ | ⟨h, hq, e⟩ <;> rw [e]
  · have e1 : 2 ^ P = 2 ^ bitlen m * 2 ^ (P - bitlen m) := by rw [← pow_add]; congr 1; omega
    have e2 : 2 ^ (P - 1) = 2 ^ (bitlen m - 1) * 2 ^ (P - bitlen m) := by rw [← pow_add]; congr 1; omega
    exact ⟨e2 ▸ Nat.mul_le_mul_right _ lo, e1 ▸ Nat.mul_lt_mul_of_pos_right hi (by positivity)⟩
  · exact ⟨(roundedSig_bounds hP h).1, hq⟩
  · exact ⟨le_rfl, hlt⟩

/-- The length of the numerator never exceeds the leading-one position, but for the zero word. -/
theorem bitlen_mantissa_cases (x : Word) :
    bitlen (mantissa x).toNat ≤ leadingOne x ∨ (x = 0 ∧ bitlen (mantissa x).toNat = 1 ∧ leadingOne x = 0) := by
  by_cases h : x = 0
  · subst h; exact .inr (by decide)
  · have := mantissa_add h
    have := lt_two_pow_leadingOne x
    exact .inl ((bitlen_le_iff _ _).mpr (by omega))

/-- A three-field pattern read back: the middle field. -/
theorem extract_middle {e f : Nat} (x : BitVec e) (y : BitVec f) :
    (0#1 ++ x ++ y).extractLsb' f e = x := by
  apply BitVec.eq_of_getLsbD_eq
  intro i hi
  rw [BitVec.getLsbD_extractLsb', BitVec.getLsbD_append, BitVec.getLsbD_append, if_neg (by omega),
    show f + i - f = i by omega, if_pos hi]
  simp [hi]

/-- A three-field pattern read back: the low field. -/
theorem extract_low {e f : Nat} (x : BitVec e) (y : BitVec f) :
    (0#1 ++ x ++ y).extractLsb' 0 f = y := by
  apply BitVec.eq_of_getLsbD_eq
  intro i hi
  rw [BitVec.getLsbD_extractLsb', BitVec.getLsbD_append, Nat.zero_add, if_pos hi]
  simp [hi]

theorem exponent64_cvt64 (x : Word) : exponent64 (cvt64 x) = biasedExponent binary64 x % 2 ^ 11 := by
  rw [exponent64, cvt64, extract_middle, BitVec.toNat_ofNat]

theorem fraction64_cvt64 (x : Word) : fraction64 (cvt64 x) = fractionField binary64 x % 2 ^ 52 := by
  rw [fraction64, cvt64, extract_low, BitVec.toNat_ofNat]

theorem exponent32_cvt32 (x : Word) : exponent32 (cvt32 x) = biasedExponent binary32 x % 2 ^ 8 := by
  rw [exponent32, cvt32, extract_middle, BitVec.toNat_ofNat]

theorem fraction32_cvt32 (x : Word) : fraction32 (cvt32 x) = fractionField binary32 x % 2 ^ 23 := by
  rw [fraction32, cvt32, extract_low, BitVec.toNat_ofNat]

end Sys2Proof.Laws
end

