-- ==== Sys2Proof/Laws/PerInstr.lean ====
section
/-! SUPPORT. Statements for all instructions, one lemma per constructor of Instr. -/

namespace Sys2Proof.Laws

/-- Bits 130:128 of a command word are the op code (30_encoding.md R70). -/
theorem wordOfCmd_opField (c : Cmd) : (wordOfCmd c).extractLsb' 128 3 = c.op := by
  ext k hk
  simp only [wordOfCmd, BitVec.getElem_extractLsb', BitVec.getLsbD_append]
  have h1 : ¬ 128 + k < 64 := by omega
  have h2 : ¬ 128 + k - 64 < 64 := by omega
  have h3 : 128 + k - 64 - 64 = k := by omega
  rw [if_neg h1, if_neg h2, h3]
  exact BitVec.getLsbD_eq_getElem hk

/-- The op field of an instruction's command word holds its op code (R70, R72). -/
def OpField.Statement (i : Instr) : Prop :=
  (encode i).extractLsb' 128 3 = i.opcode

theorem OpField.lod (a b : Word) : OpField.Statement (.lod a b) := wordOfCmd_opField _
theorem OpField.mant (a b : Word) : OpField.Statement (.mant a b) := wordOfCmd_opField _
theorem OpField.cmul (a b : Word) : OpField.Statement (.cmul a b) := wordOfCmd_opField _
theorem OpField.mul (a b : Word) : OpField.Statement (.mul a b) := wordOfCmd_opField _
theorem OpField.cvtd (a b : Word) : OpField.Statement (.cvtd a b) := wordOfCmd_opField _
theorem OpField.cvts (a b : Word) : OpField.Statement (.cvts a b) := wordOfCmd_opField _
theorem OpField.reserved110 (a b : Word) : OpField.Statement (.reserved110 a b) := wordOfCmd_opField _
theorem OpField.reserved111 (a b : Word) : OpField.Statement (.reserved111 a b) := wordOfCmd_opField _

end Sys2Proof.Laws
end

