-- ==== Sys2Proof/Laws/Value.lean ====
section
/-! SUPPORT. Words from their parts: what `encode(p / 2^n)` is, and what the multiplier computes, in arithmetic terms. -/

namespace Sys2Proof.Laws

open Sys2Proof.Machine

theorem mantissa_lt {x : Word} (h : x ≠ 0) : (mantissa x).toNat < 2 ^ leadingOne x := by
  have := mantissa_add h
  have := lt_two_pow_leadingOne x
  omega

@[simp] theorem leadingOne_zero : leadingOne 0#64 = 0 := by decide
@[simp] theorem mantissa_zero : mantissa 0#64 = 1#64 := by decide

/-- The numerator is at most `2^LO(x)`, the bound of R124 and C2. -/
theorem mantissa_le (x : Word) : (mantissa x).toNat ≤ 2 ^ leadingOne x := by
  by_cases h : x = 0
  · subst h; decide
  · exact (mantissa_lt h).le

/-- The word is its leading one and half its numerator (R126). -/
theorem toNat_eq_parts {x : Word} (h : x ≠ 0) :
    x.toNat = 2 ^ (leadingOne x - 1) + (mantissa x).toNat / 2 := by
  have := mantissaBits_add h
  have := mantissa_toNat x
  omega

/-- A word whose number has its leading one at `n` and `k` below it. -/
theorem parts_of_toNat {x : Word} {n k : Nat} (hn : 1 ≤ n) (hk : k < 2 ^ (n - 1)) (hx : x.toNat = 2 ^ (n - 1) + k) :
    leadingOne x = n ∧ (mantissa x).toNat = 2 * k + 1 := by
  have hdouble : 2 ^ n = 2 * 2 ^ (n - 1) := by rw [← pow_succ']; congr 1; omega
  have hlo : leadingOne x = n := by
    have := bitlen_eq_of_bounds (v := x.toNat) (k := n - 1) (by omega)
      (by rw [show n - 1 + 1 = n by omega]; omega)
    rw [leadingOne_eq_bitlen, this]; omega
  have hne : x ≠ 0 := fun h => by
    rw [show x = 0#64 from h, leadingOne_zero] at hlo; omega
  have := mantissa_add hne
  rw [hlo] at this
  exact ⟨hlo, by omega⟩

theorem encodeFraction_toNat {p n : Nat} (hn : 1 ≤ n) (hn' : n ≤ 64) (hp : p < 2 ^ n) :
    (encodeFraction p n).toNat = 2 ^ (n - 1) + (p - 1) / 2 := by
  have hdouble : 2 ^ n = 2 * 2 ^ (n - 1) := by rw [← pow_succ']; congr 1; omega
  have : 2 ^ n ≤ 2 ^ 64 := Nat.pow_le_pow_right (by omega) hn'
  rw [encodeFraction, BitVec.toNat_ofNat, Nat.mod_eq_of_lt (by omega)]

/-- The parts of an encoded fraction (R64). -/
theorem encodeFraction_parts {p n : Nat} (hn : 1 ≤ n) (hn' : n ≤ 64) (hodd : p % 2 = 1) (hp : p < 2 ^ n) :
    leadingOne (encodeFraction p n) = n ∧ (mantissa (encodeFraction p n)).toNat = p := by
  have hdouble : 2 ^ n = 2 * 2 ^ (n - 1) := by rw [← pow_succ']; congr 1; omega
  have := parts_of_toNat hn (by omega) (encodeFraction_toNat hn hn' hp)
  exact ⟨this.1, by omega⟩

theorem highBit_toNat {n : Nat} (hn : n ≤ 64) : (highBit n).toNat = if n = 0 then 0 else 2 ^ (n - 1) := by
  unfold highBit
  split
  · rfl
  · have : 2 ^ (n - 1) < 2 ^ 64 := Nat.pow_lt_pow_right (by omega) (by omega)
    rw [BitVec.toNat_shiftLeft, Nat.shiftLeft_eq, BitVec.toNat_ofNat]
    omega

theorem numeratorProduct_odd (a b : Word) : numeratorProduct a b % 2 = 1 := by
  rw [numeratorProduct, Nat.mul_mod, mantissa_odd, mantissa_odd]

/-- The bound the proof of R147 rests on. -/
theorem numeratorProduct_lt {a b : Word} (h : 1 ≤ exponentSum a b) : numeratorProduct a b < 2 ^ exponentSum a b := by
  rw [numeratorProduct, exponentSum, pow_add]
  have ha := mantissa_le a
  have hb := mantissa_le b
  by_cases h0 : a = 0
  · subst h0
    have hb0 : b ≠ 0 := fun h1 => by subst h1; simp [exponentSum] at h
    simpa using mantissa_lt hb0
  · exact Nat.mul_lt_mul_of_lt_of_le (mantissa_lt h0) hb (by positivity)

/-- The exponent sum is 0 exactly where both operands are `MAX`. -/
theorem exponentSum_eq_zero_iff (a b : Word) : exponentSum a b = 0 ↔ a = 0 ∧ b = 0 := by
  rw [exponentSum, Nat.add_eq_zero_iff, leadingOne_eq_zero_iff, leadingOne_eq_zero_iff]

theorem productBits_toNat {a b : Word} (h : exponentSum a b ≤ 63) :
    (productBits a b).toNat = numeratorProduct a b / 2 := by
  have hlt : numeratorProduct a b < 2 ^ 64 := by
    by_cases h0 : exponentSum a b = 0
    · obtain ⟨rfl, rfl⟩ := (exponentSum_eq_zero_iff a b).mp h0; decide
    · exact (numeratorProduct_lt (by omega)).trans_le (Nat.pow_le_pow_right (by omega) (by omega))
  rw [productBits, BitVec.toNat_ofNat, Nat.shiftRight_eq_div_pow, pow_one, Nat.mod_eq_of_lt (by omega)]

/-- Everything `CHECKED_MUL` can do (R141, R142, R146): nothing at an exponent sum of 64 or more; `MAX` at 0; else
the word of the numerator product over 2 to the exponent sum. -/
theorem checkedMul_cases (a b : Word) :
    (64 ≤ exponentSum a b ∧ checkedMul a b = none) ∨
    (exponentSum a b = 0 ∧ a = 0 ∧ b = 0 ∧ checkedMul a b = some 0) ∨
    (1 ≤ exponentSum a b ∧ exponentSum a b ≤ 63 ∧ numeratorProduct a b < 2 ^ exponentSum a b ∧
      checkedMul a b = some (encodeFraction (numeratorProduct a b) (exponentSum a b))) := by
  by_cases hn : 64 ≤ exponentSum a b
  · exact .inl ⟨hn, by rw [checkedMul, if_pos hn]⟩
  by_cases h0 : exponentSum a b = 0
  · obtain ⟨rfl, rfl⟩ := (exponentSum_eq_zero_iff a b).mp h0
    exact .inr (.inl ⟨h0, rfl, rfl, by decide⟩)
  · have hp := numeratorProduct_lt (a := a) (b := b) (by omega)
    refine .inr (.inr ⟨by omega, by omega, hp, ?_⟩)
    rw [checkedMul, if_neg hn]
    congr 1
    apply BitVec.eq_of_toNat_eq
    have hodd := numeratorProduct_odd a b
    have hsmall : 2 ^ exponentSum a b ≤ 2 ^ 63 := Nat.pow_le_pow_right (by omega) (by omega)
    have hdouble : 2 ^ exponentSum a b = 2 * 2 ^ (exponentSum a b - 1) := by
      rw [← pow_succ']; congr 1; omega
    rw [encodeFraction_toNat (by omega) (by omega) hp, BitVec.toNat_add, highBit_toNat (by omega),
      productBits_toNat (by omega), if_neg h0]
    omega

end Sys2Proof.Laws
end

