-- ==== Sys2Proof/Tests/Slice0.lean ====
section
/-! SUPPORT. Tests of the model.  Expected values are the spec's: 95_test_vectors.md (E1 to E10, sections 2 and 3),
the corner cases of the command rules and the encodings of 30_encoding.md R70, R72. -/

namespace Sys2Proof.Tests

open Sys2Proof.Machine Sys2Proof.Safety

/-! ## Helpers -/

/-- A block with outputs left over from some command. -/
def block : State :=
  { op := 0b111#3, a := 7, b := 9, y := 0xDEAD#64, status := 0b10#2, params := Params.reference, draws := 3 }

/-- The strictly source-only block of R6: `HAS_CVTS` = false. -/
def sourceOnlyBlock : State :=
  { block with params := { Params.reference with hasCvts := false } }

/-- Drive a command and look at the state after one step. -/
def after (s : State) (op : BitVec 3) (a b : Word) : Option State :=
  match step (s.present { op := op, a := a, b := b }) with
  | .next t => some t
  | .fault _ => none
  | .refused _ => none

/-- The outputs after one step. -/
def outputs (s : State) (op : BitVec 3) (a b : Word) : Option (BitVec 2 × Word) :=
  (after s op a b).map fun t => (t.status, t.y)

/-- The status after one step. -/
def statusOf (s : State) (op : BitVec 3) (a b : Word) : Option (BitVec 2) :=
  (after s op a b).map fun t => t.status

/-! ## Decoding: words written out from R70 and R72, `{op, b, a}` -/

theorem test_decode_lod :
    decode 0x0_FFFF_FFFF_FFFF_FFFF_0000_0000_0000_0005#131 = .lod 5 0xFFFF_FFFF_FFFF_FFFF := by decide
theorem test_decode_mant :
    decode 0x1_0000_0000_0000_0000_0000_0000_0000_004A#131 = .mant 0x4A 0 := by decide
theorem test_decode_cmul :
    decode 0x2_0000_0000_0000_000B_0000_0000_0000_0005#131 = .cmul 5 0xB := by decide
theorem test_decode_mul :
    decode 0x3_0000_0000_0000_0000_8000_0000_0000_0000#131 = .mul 0x8000_0000_0000_0000 0 := by decide
theorem test_decode_cvtd :
    decode 0x4_0000_0000_0000_0000_0000_0000_0000_004A#131 = .cvtd 0x4A 0 := by decide
theorem test_decode_cvts :
    decode 0x5_0000_0000_0000_0000_0000_0000_0000_0004#131 = .cvts 4 0 := by decide
theorem test_decode_reserved110 :
    decode 0x6_0000_0000_0000_0005_0000_0000_0000_0005#131 = .reserved110 5 5 := by decide
theorem test_decode_reserved111 :
    decode 0x7_0000_0000_0000_000B_0000_0000_0000_0005#131 = .reserved111 5 0xB := by decide

/-- A number with a bit above bit 130 is no command word. -/
theorem test_decode_too_wide : (decodeNat (2 ^ 131)).toOption = none := by decide
theorem test_decode_table_word_too_wide : decodeTableWord 136 (2 ^ 131) = none := by decide
theorem test_decode_largest_word : (decodeNat (2 ^ 131 - 1)).toOption =
    some (.reserved111 0xFFFF_FFFF_FFFF_FFFF 0xFFFF_FFFF_FFFF_FFFF) := by decide

/-- The command words of programs P1 and P5. -/
theorem test_encode_cmul :
    encode (.cmul 5 0xB) = 0x2_0000_0000_0000_000B_0000_0000_0000_0005#131 := by decide
theorem test_encode_reserved110 :
    encode (.reserved110 5 5) = 0x6_0000_0000_0000_0005_0000_0000_0000_0005#131 := by decide

/-! ## WellFormed: the checks that refuse something, each with a term it refuses -/

theorem test_writable_refuses_reserved110 : (Instr.reserved110 5 5).writable = false := by decide
theorem test_writable_refuses_reserved111 : (Instr.reserved111 5 5).writable = false := by decide
theorem test_writable_accepts_cvts : (Instr.cvts 5 5).writable = true := by decide
theorem test_performs_refuses_reserved110 : (Instr.reserved110 5 5).performs Params.reference = false := by decide
theorem test_performs_refuses_reserved111 : (Instr.reserved111 5 5).performs Params.reference = false := by decide
theorem test_performs_refuses_cvts_without_converter :
    (Instr.cvts 5 5).performs sourceOnlyBlock.params = false := by decide
/-- Every operand word is legal (R61). -/
theorem test_wellFormed_accepts_all_ones :
    (Instr.cmul 0xFFFF_FFFF_FFFF_FFFF 0xFFFF_FFFF_FFFF_FFFF).wellFormed = true := by decide

/-! ## One step of each command -/

/-- Section 2: `LOD 0x5` with all ones on `b`. -/
theorem test_lod_ignores_b : outputs block 0b000#3 5 0xFFFF_FFFF_FFFF_FFFF = some (0b00#2, 3) := by decide
/-- R101: `MIN` gives 64, the one value with `y[6]` = 1. -/
theorem test_lod_min : outputs block 0b000#3 0x8000_0000_0000_0000 0 = some (0b00#2, 64) := by decide
/-- Section 2.1: the largest numerator. -/
theorem test_mant_all_ones : outputs block 0b001#3 0xFFFF_FFFF_FFFF_FFFF 0 =
    some (0b00#2, 0xFFFF_FFFF_FFFF_FFFF) := by decide
/-- R123: `MANT 0` is 1. -/
theorem test_mant_zero : outputs block 0b001#3 0 0 = some (0b00#2, 1) := by decide
/-- Section 2.2: the largest numerators at n = 63. -/
theorem test_cmul_largest : outputs block 0b010#3 0xFFFF_FFFF 0x7FFF_FFFF =
    some (0b00#2, 0x7FFF_FFFF_4000_0000) := by decide
/-- Section 2.2: the sum 128, which a 7-bit adder would wrap to 0 (R140). -/
theorem test_cmul_min_min_absent : statusOf block 0b010#3 0x8000_0000_0000_0000 0x8000_0000_0000_0000 =
    some 0b01#2 := by decide
/-- Section 2.2: `MUL 0x4A, 0x4A`. -/
theorem test_mul_square : outputs block 0b011#3 0x4A 0x4A = some (0b00#2, 0x20DC) := by decide
/-- E6 and C1: the sum 64 fails. -/
theorem test_mul_sum_64_precision_error : statusOf block 0b011#3 0x8000_0000 0x8000_0000 = some 0b10#2 := by decide
/-- Section 2.4: a binary64 tie that rounds up to even. -/
theorem test_cvtd_tie_up : outputs block 0b100#3 0x0030_0000_0000_0001 0 =
    some (0b00#2, 0x3FE0_0000_0000_0002) := by decide
/-- Section 2.4: a carry out of the significand. -/
theorem test_cvtd_carry : outputs block 0b100#3 0xFFFF_FFFF_FFFF_FFFF 0 =
    some (0b00#2, 0x3FF0_0000_0000_0000) := by decide
/-- Section 2.4: single rounding; double rounding would give `0x3F00_0000`. -/
theorem test_cvts_single_rounding : outputs block 0b101#3 0xC000_0040_0000_0000 0 =
    some (0b00#2, 0x3F00_0001) := by decide
/-- Section 2.3: without `HAS_CVTS`. -/
theorem test_cvts_illegal : statusOf sourceOnlyBlock 0b101#3 4 0 = some 0b11#2 := by decide
/-- Section 2.3. -/
theorem test_reserved110 : statusOf block 0b110#3 0 0 = some 0b11#2 := by decide
/-- Section 2.3. -/
theorem test_reserved111 : statusOf block 0b111#3 5 0xB = some 0b11#2 := by decide

/-- The command placed by `withFetchWord` is the next one evaluated (P1: `CMUL` of 5 and 0xB gives 0x4A). -/
theorem test_withFetchWord_runs_command :
    (match step (State.reset.withFetchWord 136 0x2_0000_0000_0000_000B_0000_0000_0000_0005) with
      | .next t => some (t.status, t.y)
      | .fault _ => none
      | .refused _ => none) = some (0b00#2, 0x4A#64) := by decide

/-! ## The encoding, pseudo-instructions and the host notation -/

/-- E4 in values: the word `0b101` is 3/8. -/
theorem test_encodeFraction : encodeFraction 3 3 = 0b101#64 := by decide
/-- R78: `DBG 0b101`. -/
theorem test_pseudo_dbg : (Pseudo.dbg 0b101).expand = [.mant 0b101 0, .lod 0b101 0] := by decide
/-- E7. -/
theorem test_dbg_string : Driver.dbgString 0b101 = "Dyadra(3/2^3)" := by decide

/-- P4: the fault of `MUL MIN, MAX` ends the run at its statement and leaves `h2`. -/
theorem test_driver_fault_ends_run :
    (match Driver.execStmt (.command 0b011#3 2 0 (some 1))
        { Driver.HostState.start with h := #v[0x8000_0000_0000_0000, 0, 0x1234, 0, 0, 0, 0, 0], pointer := 3 } with
      | .ok u => some (u.run, u.hs, u.h[2], u.pointer)
      | .error _ => none) = some (.faulted, 0b10#2, 0x1234#64, 3) := by decide
/-- P2, iteration 6: `ABSENT` leaves `h0` and the run goes on. -/
theorem test_driver_absent_goes_on :
    (match Driver.execStmt (.command 0b010#3 0 0 (some 0))
        { Driver.HostState.start with h := #v[0x8000_0000, 5, 0, 0, 0, 0, 0, 0], pointer := 2 } with
      | .ok u => some (u.run, u.hs, u.h[0], u.pointer)
      | .error _ => none) = some (.running, 0b01#2, 0x8000_0000#64, 3) := by decide

/-! ## Witnesses: concrete inputs that meet the hypotheses of each statement, at the ends of the ranges -/

theorem witness_LeadingOneEquivalentForms :
    (1#64 ≠ 0 ∧ 1 ≤ 1 ∧ 2 ^ (1 - 1) ≤ (1#64).toNat ∧ (1#64).toNat < 2 ^ 1) ∧
    ((0x8000_0000_0000_0000#64).getLsbD 63 = true ∧ (0x8000_0000_0000_0000#64).toNat < 2 ^ 64) ∧
    (5#64).getLsbD 2 = true ∧ leadingOne 5 = 2 + 1 := by decide
theorem witness_LeadingOneConsequences :
    leadingOne 0 = 0 ∧ leadingOne 1 = 1 ∧ leadingOne 0x8000_0000_0000_0000 = 64 ∧
    leadingOne (1#64 <<< (64 - 1)) = 64 := by decide
theorem witness_MaskValues :
    leadingOne 0 = 0 ∧ 1 ≤ leadingOne 1 ∧ (mask 1).toNat + 1 = 2 ^ (1 - 1) ∧
    (mask 64).toNat + 1 = 2 ^ (64 - 1) := by decide
theorem witness_NumeratorRange :
    leadingOne 0 = 0 ∧ 1 ≤ leadingOne 1 ∧ leadingOne 0x7FFF_FFFF_FFFF_FFFF ≤ 63 ∧
    ((1 : Nat) % 2 = 1 ∧ 1 ≤ 2 ^ 1 - 1 ∧ leadingOne 1 = 1 ∧ (mantissa 1).toNat = 1) ∧
    (2 ^ 64 - 1) % 2 = 1 := by decide
theorem witness_IsolationIdentity :
    1#64 ≠ 0 ∧ (mantissaBits 1).toNat = 0 ∧ (mantissaBits 0xFFFF_FFFF_FFFF_FFFF).toNat = 2 ^ 63 - 1 := by decide
theorem witness_WordFromItsParts :
    leadingOne 0 = 0 ∧ 1 ≤ leadingOne 1 ∧ leadingOne 5 = leadingOne 5 ∧ mantissa 5 = mantissa 5 := by decide
/-- Both ends of the exponents: 1/2 and (2^64 - 1)/2^64. -/
theorem witness_ValueEncodingIsABijection :
    (1 ≤ 1 ∧ 1 ≤ 64 ∧ 1 % 2 = 1 ∧ 1 < 2 ^ 1 ∧ encodeFraction 1 1 = 1) ∧
    ((2 ^ 64 - 1) % 2 = 1 ∧ 2 ^ 64 - 1 < 2 ^ 64 ∧ encodeFraction (2 ^ 64 - 1) 64 = 0xFFFF_FFFF_FFFF_FFFF) := by decide
theorem witness_LodGivesLeadingOne : (0#64 = 0) ∧ (1#64 ≠ 0) ∧ (0xFFFF_FFFF_FFFF_FFFF#64 ≠ 0) := by decide
theorem witness_MantGivesOddNumerator : 0 < 63 ∧ 62 < 63 ∧ (0 + 1 < leadingOne 3) ∧ ¬ (1 + 1 < leadingOne 3) := by
  decide
/-- Both clauses where they meet: the sums 63 and 64, and the ends 0 and 128. -/
theorem witness_CmulGivesExactProductOrAbsent :
    leadingOne 0 + leadingOne 0 ≤ 63 ∧ leadingOne 0x8000_0000 + leadingOne 0x4000_0000 = 63 ∧
    leadingOne 0x8000_0000 + leadingOne 0x8000_0000 = 64 ∧ 64 ≤ leadingOne minWord + leadingOne minWord := by decide
theorem witness_MulGivesExactProductOrPrecisionError :
    leadingOne 0x4000_0000_0000_0000 + leadingOne 0 = 63 ∧ leadingOne 0x4000_0000_0000_0000 + leadingOne 1 = 64 := by
  decide
theorem witness_ProductBitsNeverReachHighBit :
    leadingOne 0 + leadingOne 0 = 0 ∧ 1 ≤ leadingOne 0xFFFF_FFFF + leadingOne 0x7FFF_FFFF ∧
    leadingOne 0xFFFF_FFFF + leadingOne 0x7FFF_FFFF ≤ 63 := by decide
theorem witness_CheckedMulLaws :
    checkedMul 5 0xB = some 0x4A ∧ (0x7FFF_FFFF_FFFF_FFFF#64).toNat < 2 ^ 63 ∧
    2 ^ 63 ≤ (0x8000_0000_0000_0000#64).toNat := by decide
theorem witness_CvtsRoundsToNearestEvenOrIsIllegal :
    block.params.hasCvts = true ∧ sourceOnlyBlock.params.hasCvts = false := by decide
theorem witness_ConversionRange :
    roundNumerator 53 (mantissa 0xFFFF_FFFF_FFFF_FFFF).toNat =
      { sig := 2 ^ 52, len := leadingOne 0xFFFF_FFFF_FFFF_FFFF + 1 } ∧
    roundNumerator 24 (mantissa 0x01FF_FFFF).toNat = { sig := 2 ^ 23, len := leadingOne 0x01FF_FFFF + 1 } := by decide
theorem witness_ConversionExactness :
    bitlen (mantissa 0x001F_FFFF_FFFF_FFFF).toNat = 53 ∧ leadingOne 0x001F_FFFF_FFFF_FFFF ≤ 53 ∧
    bitlen (mantissa 0x0030_0000_0000_0000).toNat = 54 ∧
    bitlen (mantissa 0x00FF_FFFF).toNat = 24 ∧ leadingOne 0x00FF_FFFF ≤ 24 ∧
    bitlen (mantissa 0x0180_0000).toNat = 25 := by decide
theorem witness_ConversionTies :
    1 ≤ discardCount 53 (mantissa 0x0030_0000_0000_0000).toNat ∧
    discardedBits 53 (mantissa 0x0030_0000_0000_0000).toNat =
      1 <<< (discardCount 53 (mantissa 0x0030_0000_0000_0000).toNat - 1) ∧
    discardCount 24 (mantissa 0xFFFF_FFFF_FFFF_FFFF).toNat = 40 := by decide
theorem witness_PowersOfTwoConvertExactly :
    cvt64 (1#64 <<< (1 - 1)) = 0x3FE0_0000_0000_0000 ∧ cvt64 (1#64 <<< (64 - 1)) = 0x3BF0_0000_0000_0000 := by decide
theorem witness_ReservedCodesReportIllegalOp :
    sourceOnlyBlock.params.hasCvts = false ∧ SelectsNothing block ∧
    SelectsNothing { sourceOnlyBlock with op := 0b101#3 } ∧ ¬ SelectsNothing { block with op := 0b101#3 } := by
  simp [SelectsNothing, block, sourceOnlyBlock, Params.reference]
theorem witness_StepEvaluatesDecodedCommand :
    decode (block.op ++ block.b ++ block.a) = .reserved111 7 9 := by decide
theorem witness_NoOtherOutcome :
    { block with op := 0b101#3 }.op = 0b101#3 ∧ block.params.hasCvts = true ∧
    { block with op := 0b011#3 }.op = 0b011#3 ∧ leadingOne block.a + leadingOne block.b ≤ 63 := by decide
/-- The step of a concrete state, for every statement about a step's next state. -/
theorem witness_StepLeavesOutputsFollowingInputs :
    step block = .next (block.complete (.fault .illegalOp)) := rfl
theorem witness_UnreadOperandsHaveNoEffect :
    (0b000#3 ≠ 0b010#3 ∧ 0b000#3 ≠ 0b011#3) ∧ (0b110#3 ≠ 0b010#3 ∧ 0b110#3 ≠ 0b011#3) := by decide
theorem witness_OutcomeIndependentOfHistory :
    { block with y := 1, status := 0b00#2, draws := 9 }.cmd = block.cmd ∧
    { block with y := 1, status := 0b00#2, draws := 9 }.params = block.params := by decide
theorem witness_RepeatedCommandGivesSameOutcome :
    statusOf block 0b000#3 5 0 = some Status.ok.code := by decide
theorem witness_OutcomeIndependentOfLatency :
    ({ hasCvts := true, latency := 7, hostByteOrder := .big } : Params).hasCvts = Params.reference.hasCvts := by decide
theorem witness_CommandsChangeOutputsOnly :
    exec (.lod 5 0) block = .next (block.complete (.ok 3)) ∧
    exec (.reserved110 5 0) block = .next (block.complete (.fault .illegalOp)) := ⟨rfl, rfl⟩
theorem witness_UnitsDriveTheOutputs :
    { block with op := 0b010#3 }.op = 0b010#3 ∧ { block with op := 0b101#3 }.params.hasCvts = true := by decide
theorem witness_PowerOnOutputs : Params.reference.latency = 0 := by decide

end Sys2Proof.Tests
end

section
/-! PROOFS. The outputs of the block (10_state.md): what the outcome of a command is for each op code, when it carries
a result, and what a step therefore leaves on the ports. -/

namespace Sys2Proof.Proofs

open Sys2Proof.Machine Sys2Proof.Safety Sys2Proof.Laws

/-! ### What an outcome puts on the outputs -/

@[simp] theorem status_ok (y : Word) : (CmdOutcome.ok y).status = .ok := rfl
@[simp] theorem status_absent : CmdOutcome.absent.status = .absent := rfl
@[simp] theorem status_precisionError : (CmdOutcome.fault .precisionError).status = .precisionError := rfl
@[simp] theorem status_illegalOutcome : illegalOutcome.status = .illegalOp := rfl

theorem status_fault_ne_ok (f : Fault) : (CmdOutcome.fault f).status ≠ .ok := by
  cases f <;> decide

theorem status_eq_ok_iff (o : CmdOutcome) : o.status = .ok ↔ ∃ y, o = .ok y := by
  cases o with
  | ok y => simp
  | absent => simp
  | fault f => simp [status_fault_ne_ok]

/-- The free word is seen only where there is no result (R205). -/
theorem word_eq_of_status_ok {o : CmdOutcome} (h : o.status = .ok) (free free' : Word) :
    o.word free = o.word free' := by
  obtain ⟨y, rfl⟩ := (status_eq_ok_iff o).mp h
  rfl

theorem drawCount_of_status_ok {o : CmdOutcome} (h : o.status = .ok) : o.drawCount = 0 := by
  obtain ⟨y, rfl⟩ := (status_eq_ok_iff o).mp h
  rfl

theorem drawCount_of_status_ne_ok {o : CmdOutcome} (h : o.status ≠ .ok) : o.drawCount = 1 := by
  cases o with
  | ok y => exact absurd rfl h
  | absent => rfl
  | fault f => rfl

/-! ### The multiplier -/

theorem value_zero : value (0 : Word) = 1 := by
  simp [value]

/-- The value of an encoded fraction (R64). -/
theorem value_encodeFraction {p n : Nat} (hn : 1 ≤ n) (hn' : n ≤ 64) (hodd : p % 2 = 1) (hp : p < 2 ^ n) :
    value (encodeFraction p n) = (p : Rat) / 2 ^ n := by
  obtain ⟨hlo, hmant⟩ := encodeFraction_parts hn hn' hodd hp
  rw [value, hlo, hmant]

/-- The value of a product: the numerators multiply and the exponents add (R62, R140, R144). -/
theorem value_mul_value (a b : Word) :
    value a * value b = (numeratorProduct a b : Rat) / 2 ^ exponentSum a b := by
  rw [value, value, numeratorProduct, exponentSum, pow_add, Nat.cast_mul, div_mul_div_comm]

/-- The exponent test alone decides whether there is a product (R142). -/
theorem checkedMul_eq_none_iff (a b : Word) : checkedMul a b = none ↔ 64 ≤ exponentSum a b := by
  simp [checkedMul]

/-- A product is exact (R149). -/
theorem value_of_checkedMul {a b y : Word} (h : checkedMul a b = some y) : value y = value a * value b := by
  obtain ⟨-, hnone⟩ | ⟨-, rfl, rfl, hzero⟩ | ⟨hn, hn', hp, hfrac⟩ := checkedMul_cases a b
  · simp [hnone] at h
  · obtain rfl : 0 = y := Option.some.inj (hzero.symm.trans h)
    rw [value_zero, one_mul]
  · obtain rfl : encodeFraction _ _ = y := Option.some.inj (hfrac.symm.trans h)
    rw [value_encodeFraction hn (by omega) (numeratorProduct_odd a b) hp, value_mul_value]

theorem cmulOutcome_of_overflow {a b : Word} (h : 64 ≤ exponentSum a b) : cmulOutcome a b = .absent := by
  rw [cmulOutcome, (checkedMul_eq_none_iff a b).mpr h]

theorem mulOutcome_of_overflow {a b : Word} (h : 64 ≤ exponentSum a b) :
    mulOutcome a b = .fault .precisionError := by
  rw [mulOutcome, (checkedMul_eq_none_iff a b).mpr h]

/-- Below the overflow `CMUL` and `MUL` agree, on the exact product (R148, R150). -/
theorem exists_product_of_not_overflow {a b : Word} (h : ¬ 64 ≤ exponentSum a b) :
    ∃ y, value y = value a * value b ∧ cmulOutcome a b = .ok y ∧ mulOutcome a b = .ok y := by
  obtain ⟨y, hy⟩ := Option.ne_none_iff_exists'.mp (mt (checkedMul_eq_none_iff a b).mp h)
  exact ⟨y, value_of_checkedMul hy, by rw [cmulOutcome, hy], by rw [mulOutcome, hy]⟩

/-- `CMUL` is the multiplier's two ports: `ok` for the status, `p` for the word (R29, R148). -/
theorem dmulUnit_eq_cmulOutcome (free a b : Word) :
    dmulUnit free a b = (decide ((cmulOutcome a b).status = .ok), (cmulOutcome a b).word free) := by
  rw [dmulUnit, cmulOutcome]
  cases checkedMul a b <;> rfl

/-- So is `MUL` (R29, R150). -/
theorem dmulUnit_eq_mulOutcome (free a b : Word) :
    dmulUnit free a b = (decide ((mulOutcome a b).status = .ok), (mulOutcome a b).word free) := by
  rw [dmulUnit, mulOutcome]
  cases checkedMul a b <;> rfl

/-! ### The detector -/

/-- Seven bits hold every position (R29). -/
theorem lodUnit_toNat (x : Word) : (lodUnit x).toNat = leadingOne x := by
  have := leadingOne_le x
  rw [lodUnit, BitVec.toNat_ofNat, Nat.mod_eq_of_lt (by omega)]

/-- Extending the position to a word loses nothing (R101). -/
theorem zext64_lodUnit_toNat (x : Word) : (zext64 (lodUnit x)).toNat = leadingOne x := by
  rw [zext64, BitVec.toNat_setWidth_of_le (by omega), lodUnit_toNat]

/-! ### `eval` by op code (R72) -/

section EvalByOp
variable (p : Params) {c : Cmd}

theorem eval_of_op_lod (h : c.op = 0b000#3) : eval p c = .ok (zext64 (lodUnit c.a)) := by
  rw [eval, decodeCmd, h]; rfl

theorem eval_of_op_mant (h : c.op = 0b001#3) : eval p c = .ok (mexUnit c.a) := by
  rw [eval, decodeCmd, h]; rfl

theorem eval_of_op_cmul (h : c.op = 0b010#3) : eval p c = cmulOutcome c.a c.b := by
  rw [eval, decodeCmd, h]; rfl

theorem eval_of_op_mul (h : c.op = 0b011#3) : eval p c = mulOutcome c.a c.b := by
  rw [eval, decodeCmd, h]; rfl

theorem eval_of_op_cvtd (h : c.op = 0b100#3) : eval p c = .ok (fcvtUnit c.a false) := by
  rw [eval, decodeCmd, h]; rfl

theorem eval_of_op_cvts (h : c.op = 0b101#3) : eval p c = cvtsOutcome p c.a := by
  rw [eval, decodeCmd, h]; rfl

theorem eval_of_op_cvts_of_hasCvts (h : c.op = 0b101#3) (hp : p.hasCvts = true) :
    eval p c = .ok (fcvtUnit c.a true) := by
  rw [eval_of_op_cvts p h, cvtsOutcome, if_pos hp]

theorem eval_of_op_reserved110 (h : c.op = 0b110#3) : eval p c = illegalOutcome := by
  rw [eval, decodeCmd, h]; rfl

theorem eval_of_op_reserved111 (h : c.op = 0b111#3) : eval p c = illegalOutcome := by
  rw [eval, decodeCmd, h]; rfl

end EvalByOp

theorem op_cases (op : BitVec 3) :
    op = 0b000#3 ∨ op = 0b001#3 ∨ op = 0b010#3 ∨ op = 0b011#3 ∨
    op = 0b100#3 ∨ op = 0b101#3 ∨ op = 0b110#3 ∨ op = 0b111#3 := by
  revert op; decide

/-- A step shows what `eval` gives for the command on the ports (R31). -/
theorem step_eq_complete_eval (s : State) : step s = .next (s.complete (eval s.params s.cmd)) :=
  step_eq_complete s

theorem complete_y_of_eval_ok {s : State} {y : Word} (h : eval s.params s.cmd = .ok y) :
    (s.complete (eval s.params s.cmd)).y = y := by
  rw [complete_y, h]; rfl

/-! ### The status of a command (R74) -/

theorem status_cmulOutcome (a b : Word) :
    (cmulOutcome a b).status = if 64 ≤ exponentSum a b then .absent else .ok := by
  split
  · next h => rw [cmulOutcome_of_overflow h, status_absent]
  · next h =>
    obtain ⟨y, -, hy, -⟩ := exists_product_of_not_overflow h
    rw [hy, status_ok]

theorem status_mulOutcome (a b : Word) :
    (mulOutcome a b).status = if 64 ≤ exponentSum a b then .precisionError else .ok := by
  split
  · next h => rw [mulOutcome_of_overflow h, status_precisionError]
  · next h =>
    obtain ⟨y, -, -, hy⟩ := exists_product_of_not_overflow h
    rw [hy, status_ok]

theorem status_cvtsOutcome (p : Params) (a : Word) :
    (cvtsOutcome p a).status = if p.hasCvts = false then .illegalOp else .ok := by
  cases h : p.hasCvts <;> simp [cvtsOutcome, h]

/-- The three causes of a status other than `OK`, which exclude each other, and no further one (R204). -/
theorem status_eval (p : Params) (c : Cmd) :
    (eval p c).status =
      if c.op = 0b010#3 ∧ 64 ≤ exponentSum c.a c.b then .absent
      else if c.op = 0b011#3 ∧ 64 ≤ exponentSum c.a c.b then .precisionError
      else if c.op = 0b110#3 ∨ c.op = 0b111#3 ∨ (c.op = 0b101#3 ∧ p.hasCvts = false) then .illegalOp
      else .ok := by
  obtain h | h | h | h | h | h | h | h := op_cases c.op
  · simp [eval_of_op_lod p h, h]
  · simp [eval_of_op_mant p h, h]
  · simp [eval_of_op_cmul p h, status_cmulOutcome, h]
  · simp [eval_of_op_mul p h, status_mulOutcome, h]
  · simp [eval_of_op_cvtd p h, h]
  · simp [eval_of_op_cvts p h, status_cvtsOutcome, h]
  · simp [eval_of_op_reserved110 p h, h]
  · simp [eval_of_op_reserved111 p h, h]

theorem status_eval_eq_absent_iff (p : Params) (c : Cmd) :
    (eval p c).status = .absent ↔ c.op = 0b010#3 ∧ 64 ≤ exponentSum c.a c.b := by
  rw [status_eval]; split_ifs <;> simp_all

theorem status_eval_eq_precisionError_iff (p : Params) (c : Cmd) :
    (eval p c).status = .precisionError ↔ c.op = 0b011#3 ∧ 64 ≤ exponentSum c.a c.b := by
  rw [status_eval]; split_ifs <;> simp_all

theorem status_eval_eq_illegalOp_iff (p : Params) (c : Cmd) :
    (eval p c).status = .illegalOp ↔
      c.op = 0b110#3 ∨ c.op = 0b111#3 ∨ (c.op = 0b101#3 ∧ p.hasCvts = false) := by
  rw [status_eval]; split_ifs <;> simp_all

/-! ### A step and the invariant -/

/-- A product is shown exactly, whichever of the two op codes asked for it. -/
theorem value_word_eval_of_product (p : Params) {c : Cmd} (free : Word)
    (hop : c.op = 0b010#3 ∨ c.op = 0b011#3) (h : ¬ 64 ≤ exponentSum c.a c.b) :
    value ((eval p c).word free) = value c.a * value c.b := by
  obtain ⟨y, hval, hcmul, hmul⟩ := exists_product_of_not_overflow h
  obtain hop | hop := hop
  · rw [eval_of_op_cmul p hop, hcmul]; exact hval
  · rw [eval_of_op_mul p hop, hmul]; exact hval

/-- Evaluating the command on the ports leaves the outputs of the inputs present (R230, R235). -/
theorem settled_complete_eval (s : State) : Settled (s.complete (eval s.params s.cmd)) where
  absent := (code_eq_iff _ _).trans (status_eval_eq_absent_iff s.params s.cmd)
  precisionError := (code_eq_iff _ _).trans (status_eval_eq_precisionError_iff s.params s.cmd)
  illegalOp := (code_eq_iff _ _).trans (status_eval_eq_illegalOp_iff s.params s.cmd)
  lod h := by
    rw [complete_y_of_eval_ok (eval_of_op_lod _ h)]
    exact zext64_lodUnit_toNat s.a
  mant h := complete_y_of_eval_ok (eval_of_op_mant _ h)
  product hop h := value_word_eval_of_product (c := s.cmd) s.params _ hop h
  cvtd h := complete_y_of_eval_ok (eval_of_op_cvtd _ h)
  cvts h hcvts := complete_y_of_eval_ok (eval_of_op_cvts_of_hasCvts _ h hcvts)

/-- Settles O28: a step shows `eval` of the inputs present, from any state whatever. -/
theorem stepLeavesOutputsFollowingInputs : Obligations.StepLeavesOutputsFollowingInputs := by
  intro s t hstep
  obtain rfl : s.complete (eval s.params s.cmd) = t :=
    Host.Outcome.next.inj ((step_eq_complete_eval s).symm.trans hstep)
  exact ⟨settled_complete_eval s, complete_cmd s _, complete_params s _⟩

/-- Settles O32: the ports and parameters fix the outcome; only the free word, unseen under `OK`, can differ. -/
theorem outcomeIndependentOfHistory : Obligations.OutcomeIndependentOfHistory := by
  intro s s' hcmd hparams
  have hstep' : step s' = .next (s'.complete (eval s.params s.cmd)) := by
    rw [step_eq_complete_eval, hcmd, hparams]
  exact ⟨_, _, step_eq_complete_eval s, hstep', rfl,
    fun hok => word_eq_of_status_ok ((code_eq_iff _ _).mp hok) _ _, rfl⟩

/-- Settles O35: an instruction only completes with its outcome, which draws a free word where it has no result. -/
theorem commandsChangeOutputsOnly : Obligations.CommandsChangeOutputsOnly := by
  intro i s t hexec
  obtain rfl : s.complete (outcomeOf s.params i) = t :=
    Host.Outcome.next.inj ((exec_eq_complete i s).symm.trans hexec)
  refine ⟨rfl, rfl, rfl, rfl, fun hok => ?_, fun hne => ?_⟩
  · rw [complete_status, code_eq_iff] at hok
    rw [complete_draws, drawCount_of_status_ok hok, Nat.add_zero]
  · rw [complete_status, Ne, code_eq_iff] at hne
    rw [complete_draws, drawCount_of_status_ne_ok hne]

/-- The multiplier's ports for either of its op codes (R29). -/
theorem dmulUnit_eq_eval (p : Params) {c : Cmd} (free : Word) (hop : c.op = 0b010#3 ∨ c.op = 0b011#3) :
    dmulUnit free c.a c.b = (decide ((eval p c).status = .ok), (eval p c).word free) := by
  obtain hop | hop := hop
  · rw [eval_of_op_cmul p hop, dmulUnit_eq_cmulOutcome]
  · rw [eval_of_op_mul p hop, dmulUnit_eq_mulOutcome]

/-- Settles O36: the outcome for each op code is the output of its unit. -/
theorem unitsDriveTheOutputs : Obligations.UnitsDriveTheOutputs := by
  refine ⟨lodUnit_toNat, fun s => ⟨_, step_eq_complete_eval s, ?lod, ?mant, ?product, ?cvtd, ?cvts⟩⟩
  case lod => exact fun h => complete_y_of_eval_ok (eval_of_op_lod _ h)
  case mant => exact fun h => complete_y_of_eval_ok (eval_of_op_mant _ h)
  case product =>
    intro h
    rw [complete_y, complete_status, decide_eq_decide.mpr (code_eq_iff _ _)]
    exact dmulUnit_eq_eval (c := s.cmd) s.params _ h
  case cvtd => exact fun h => complete_y_of_eval_ok (eval_of_op_cvtd _ h)
  case cvts => exact fun h hcvts => complete_y_of_eval_ok (eval_of_op_cvts_of_hasCvts _ h hcvts)

end Sys2Proof.Proofs
end

section
/-! PROOFS. No memory between commands (20_memory.md R43): a command evaluated again ends as before. -/

namespace Sys2Proof.Proofs

open Sys2Proof.Machine Sys2Proof.Safety Sys2Proof.Laws

/-- Only a free draw tells a second completion from the first, and a result draws none. -/
theorem complete_complete_of_status_ok {o : CmdOutcome} (h : o.status = .ok) (s : State) :
    (s.complete o).complete o = s.complete o := by
  obtain ⟨y, rfl⟩ := (status_eq_ok_iff o).mp h
  rw [complete_ok, complete_ok]

/-- A completion leaves the inputs and the parameters, so the next step evaluates the same command, also after a
fault (R209). -/
theorem step_complete (s : State) (o : CmdOutcome) :
    step (s.complete o) = .next ((s.complete o).complete (eval s.params s.cmd)) := by
  rw [step_eq_complete_eval, complete_params, complete_cmd]

/-- Settles O33: the second step completes with the outcome of the first. -/
theorem repeatedCommandGivesSameOutcome : Obligations.RepeatedCommandGivesSameOutcome := by
  intro s
  exact ⟨_, _, step_eq_complete_eval s, step_complete s _, rfl,
    fun hok => complete_complete_of_status_ok ((code_eq_iff _ _).mp hok) s⟩

end Sys2Proof.Proofs
end

section
/-! PROOFS. The command encoding (30_encoding.md part B): the three fields of a command word, the operation map, and
the operands a command does not read. -/

namespace Sys2Proof.Proofs

open Sys2Proof.Machine Sys2Proof.Safety Sys2Proof.Laws

/-! ### Command words -/

/-- The fields of a command word are read back from it (R70). -/
@[simp] theorem cmdOfWord_wordOfCmd (c : Cmd) : cmdOfWord (wordOfCmd c) = c := by
  have hop := wordOfCmd_opField c
  have hb : (wordOfCmd c).extractLsb' 64 64 = c.b := by
    rw [wordOfCmd, BitVec.extractLsb'_append_eq_of_le le_rfl, Nat.sub_self, BitVec.extractLsb'_append_eq_right]
  have ha : (wordOfCmd c).extractLsb' 0 64 = c.a := BitVec.extractLsb'_append_eq_right
  rw [cmdOfWord, hop, hb, ha]

/-- The three fields cover the whole word (R70). -/
@[simp] theorem wordOfCmd_cmdOfWord (w : CommandWord) : wordOfCmd (cmdOfWord w) = w := by
  rw [wordOfCmd, cmdOfWord, BitVec.extractLsb'_append_extractLsb'_eq_extractLsb' (by decide),
    BitVec.extractLsb'_append_extractLsb'_eq_extractLsb' (by decide)]
  exact BitVec.extractLsb'_eq_self

/-- Each operation has the op code the operation map gives it (R72). -/
@[simp] theorem decodeCmd_encodeCmd (i : Instr) : decodeCmd (encodeCmd i) = i := by
  cases i <;> rfl

/-- Each op code, the reserved ones included, selects an operation that keeps it and both operands (R72, R75). -/
@[simp] theorem encodeCmd_decodeCmd (c : Cmd) : encodeCmd (decodeCmd c) = c := by
  obtain ⟨op, a, b⟩ := c
  obtain rfl | rfl | rfl | rfl | rfl | rfl | rfl | rfl := op_cases op <;> rfl

theorem decode_encode (i : Instr) : decode (encode i) = i := by
  rw [decode, encode, cmdOfWord_wordOfCmd, decodeCmd_encodeCmd]

theorem encode_decode (w : CommandWord) : encode (decode w) = w := by
  rw [decode, encode, encodeCmd_decodeCmd, wordOfCmd_cmdOfWord]

/-- Settles O30: the word and its fields, and the fields and the instruction, determine each other. -/
theorem decodeEncodeRoundTrip : Obligations.DecodeEncodeRoundTrip :=
  ⟨decode_encode, encode_decode⟩

/-- The table's numbering of bits is that of the command word: an instruction is read from the number of its word. -/
theorem decodeTableWord_of_encode {i : Instr} {w : Nat} (h : (encode i).toNat = w) :
    decodeTableWord 136 w = some i := by
  have hlt : w < 2 ^ 131 := h ▸ (encode i).isLt
  have hword : BitVec.ofNat 131 w = encode i := by rw [← h, BitVec.ofNat_toNat, BitVec.setWidth_eq]
  rw [decodeTableWord, Nat.mod_eq_of_lt (by omega), decodeNat, if_pos hlt, hword, decode_encode]
  rfl

/-- Settles O37: each word is the one its instruction is encoded in. -/
theorem commandWordsDecode : Obligations.CommandWordsDecode := by
  and_intros <;> exact decodeTableWord_of_encode (by decide)

/-! ### Operands a command does not read -/

/-- The commands other than the multiplications do not read `b` (R73). -/
theorem eval_eq_of_b_unread (p : Params) {op : BitVec 3} (a b b' : Word)
    (hcmul : op ≠ 0b010#3) (hmul : op ≠ 0b011#3) :
    eval p { op := op, a := a, b := b } = eval p { op := op, a := a, b := b' } := by
  obtain rfl | rfl | rfl | rfl | rfl | rfl | rfl | rfl := op_cases op
  · rfl
  · rfl
  · exact absurd rfl hcmul
  · exact absurd rfl hmul
  · rfl
  · rfl
  · rfl
  · rfl

/-- The reserved codes read neither operand (R73, R203). -/
theorem eval_eq_illegalOutcome (p : Params) {op : BitVec 3} (a b : Word) (h : op = 0b110#3 ∨ op = 0b111#3) :
    eval p { op := op, a := a, b := b } = illegalOutcome := by
  obtain h | h := h
  · exact eval_of_op_reserved110 p h
  · exact eval_of_op_reserved111 p h

/-- Commands that differ only in operands they do not read have the same outcome (R73). -/
theorem eval_eq_of_operands_unread (p : Params) {op : BitVec 3} {a a' : Word} (b b' : Word)
    (hcmul : op ≠ 0b010#3) (hmul : op ≠ 0b011#3) (ha : op ≠ 0b110#3 → op ≠ 0b111#3 → a = a') :
    eval p { op := op, a := a, b := b } = eval p { op := op, a := a', b := b' } := by
  by_cases hres : op = 0b110#3 ∨ op = 0b111#3
  · rw [eval_eq_illegalOutcome p a b hres, eval_eq_illegalOutcome p a' b' hres]
  · obtain ⟨h110, h111⟩ := not_or.mp hres
    rw [ha h110 h111, eval_eq_of_b_unread p a' b b' hcmul hmul]

/-- Settles O31: both steps complete with the same outcome, and draw the same free word where it has no result. -/
theorem unreadOperandsHaveNoEffect : Obligations.UnreadOperandsHaveNoEffect := by
  intro s op a a' b b' hcmul hmul ha
  have hstep' : step (s.present { op := op, a := a', b := b' }) =
      .next ((s.present { op := op, a := a', b := b' }).complete (eval s.params { op := op, a := a, b := b })) := by
    rw [eval_eq_of_operands_unread s.params b b' hcmul hmul ha]
    exact step_eq_complete_eval _
  exact ⟨_, _, step_eq_complete_eval _, hstep', rfl, rfl, rfl⟩

end Sys2Proof.Proofs
end

section
/-! PROOFS. The encoding of values (30_encoding.md part A): a word is determined by its value, and the values are the
odd fractions `p / 2^n` and 1. -/

namespace Sys2Proof.Proofs

open Sys2Proof.Machine Sys2Proof.Safety Sys2Proof.Laws

/-! ### The word of a value -/

theorem one_le_leadingOne {x : Word} (h : x ≠ 0) : 1 ≤ leadingOne x :=
  Nat.one_le_iff_ne_zero.mpr (mt (leadingOne_eq_zero_iff x).mp h)

/-- The pair of exponent and numerator determines the word (R126). -/
theorem eq_of_leadingOne_eq_of_mantissa_eq {x y : Word} (hlo : leadingOne x = leadingOne y)
    (hmant : mantissa x = mantissa y) : x = y := by
  have hzero : x = 0 ↔ y = 0 := by rw [← leadingOne_eq_zero_iff, hlo, leadingOne_eq_zero_iff]
  by_cases hx : x = 0
  · rw [hx, hzero.mp hx]
  · apply BitVec.eq_of_toNat_eq
    rw [toNat_eq_parts hx, toNat_eq_parts (mt hzero.mpr hx), hlo, hmant]

/-- An odd fraction over a power of two is in lowest terms. -/
theorem odd_div_two_pow_inj {p q m n : Nat} (hp : p % 2 = 1) (hq : q % 2 = 1)
    (h : (p : Rat) / 2 ^ m = (q : Rat) / 2 ^ n) : p = q ∧ m = n := by
  have hpcop : Nat.Coprime p (2 ^ m) := (Nat.coprime_two_right.mpr (Nat.odd_iff.mpr hp)).pow_right m
  have hqcop : Nat.Coprime q (2 ^ n) := (Nat.coprime_two_right.mpr (Nat.odd_iff.mpr hq)).pow_right n
  have hparts := Rat.div_int_inj (a := p) (b := (2 ^ m : Nat)) (c := q) (d := (2 ^ n : Nat))
    (by positivity) (by positivity) hpcop hqcop (by push_cast; exact h)
  exact ⟨Int.ofNat.inj hparts.1, Nat.pow_right_injective le_rfl (Int.ofNat.inj hparts.2)⟩

/-- Words of equal value are equal (R67). -/
theorem value_injective : Function.Injective value := by
  intro x y h
  obtain ⟨hmant, hlo⟩ := odd_div_two_pow_inj (mantissa_odd x) (mantissa_odd y) h
  exact eq_of_leadingOne_eq_of_mantissa_eq hlo (BitVec.eq_of_toNat_eq hmant)

theorem value_eq_one_iff (x : Word) : value x = 1 ↔ x = 0 := by
  rw [← value_zero, value_injective.eq_iff]

/-- The two spellings of `encode` (R64): the leading one stands above all the bits added to it. -/
theorem encodeFraction_toNat_eq_or {p n : Nat} (hn : 1 ≤ n) (hn' : n ≤ 64) (hodd : p % 2 = 1) (hp : p < 2 ^ n) :
    (encodeFraction p n).toNat = 2 ^ (n - 1) ||| p >>> 1 := by
  have hdouble : 2 ^ n = 2 * 2 ^ (n - 1) := by rw [← pow_succ']; congr 1; omega
  have hor := Nat.two_pow_add_eq_or_of_lt (i := n - 1) (b := p / 2) (by omega) 1
  rw [mul_one] at hor
  rw [encodeFraction_toNat hn hn' hp, Nat.shiftRight_eq_div_pow, pow_one, ← hor]
  omega

/-- Settles O7: every value is that of an encoded fraction or of 0, and no two words share one. -/
theorem valueEncodingIsABijection : Obligations.ValueEncodingIsABijection := by
  refine ⟨fun x => ?cases, value_eq_one_iff, fun p n hn hn' hodd hp => ⟨fun x => ?word, ?spelling⟩⟩
  case cases =>
    exact (eq_or_ne x 0).imp (value_eq_one_iff x).mpr fun h =>
      ⟨_, _, one_le_leadingOne h, leadingOne_le x, mantissa_odd x, mantissa_lt h, rfl⟩
  case word => rw [← value_encodeFraction hn hn' hodd hp, value_injective.eq_iff]
  case spelling => exact encodeFraction_toNat_eq_or hn hn' hodd hp

/-! ### The range of values -/

/-- The numerator is at least 1 and the exponent at most 64 (R65). -/
theorem one_div_two_pow_le_value (x : Word) : 1 / 2 ^ 64 ≤ value x := by
  have hodd := mantissa_odd x
  have hmant : (1 : Rat) ≤ (mantissa x).toNat := by exact_mod_cast (by omega : 1 ≤ (mantissa x).toNat)
  have hpow : (2 : Rat) ^ leadingOne x ≤ 2 ^ 64 := pow_le_pow_right₀ one_le_two (leadingOne_le x)
  exact div_le_div₀ (by positivity) hmant (by positivity) hpow

theorem value_pos (x : Word) : 0 < value x :=
  lt_of_lt_of_le (by positivity) (one_div_two_pow_le_value x)

/-- The numerator is at most `2^LO(x)` (R65, R124). -/
theorem value_le_one (x : Word) : value x ≤ 1 := by
  rw [value, div_le_one (by positivity)]
  exact_mod_cast mantissa_le x

/-- Settles O9: the encoding is one-to-one, and a numerator lies between 1 and `2^LO(x)`. -/
theorem valuesAreDistinctInUnitInterval : Obligations.ValuesAreDistinctInUnitInterval :=
  ⟨fun _ _ => value_injective.eq_iff, fun x => ⟨value_pos x, value_le_one x⟩⟩

/-- The words of the fractions with numerator 1 (R64). -/
theorem value_encodeFraction_one {n : Nat} (hn : 1 ≤ n) (hn' : n ≤ 64) :
    value (encodeFraction 1 n) = 1 / 2 ^ n := by
  rw [value_encodeFraction hn hn' rfl (Nat.one_lt_two_pow (by omega)), Nat.cast_one]

theorem value_minWord : value minWord = 1 / 2 ^ 64 :=
  value_encodeFraction_one (n := 64) (by decide) le_rfl

/-- Settles O8: the bounds of the values are attained at the two named words. -/
theorem namedConstants : Obligations.NamedConstants := by
  refine ⟨rfl, by decide, by decide, value_zero, by decide, by decide, by decide, value_minWord,
    fun x => ⟨?_, ?_⟩⟩
  · exact value_minWord ▸ one_div_two_pow_le_value x
  · exact value_zero ▸ value_le_one x

/-- Settles O10: the single-bit words 1 and 2 encode 1/2 and 1/4, and the word 0 the largest value. -/
theorem rawOrderIsNotValueOrder : Obligations.RawOrderIsNotValueOrder := by
  have hone : value 1#64 = 1 / 2 := (value_encodeFraction_one (n := 1) le_rfl (by decide)).trans (by norm_num)
  have htwo : value 2#64 = 1 / 4 := (value_encodeFraction_one (n := 2) (by decide) (by decide)).trans (by norm_num)
  refine ⟨by decide, hone, htwo, ?_, fun x => ⟨Nat.zero_le _, ?_⟩⟩
  · rw [hone, htwo]; norm_num
  · exact value_zero ▸ value_le_one x

end Sys2Proof.Proofs
end

section
/-! PROOFS. The leading-one position (40_leading_one.md): its equivalent forms, what it says about single bits, and the
command `LOD`. -/

namespace Sys2Proof.Proofs

open Sys2Proof.Machine Sys2Proof.Safety Sys2Proof.Laws

/-! ### The forms of `LO(x)` (R102) -/

theorem leadingOne_le_iff (x : Word) (k : Nat) : leadingOne x ≤ k ↔ x.toNat < 2 ^ k := by
  rw [leadingOne_eq_bitlen, bitlen_le_iff]

theorem lt_leadingOne_iff (x : Word) (k : Nat) : k < leadingOne x ↔ 2 ^ k ≤ x.toNat := by
  rw [leadingOne_eq_bitlen, lt_bitlen_iff]

theorem one_le_leadingOne_and_bounds {x : Word} (h : x ≠ 0) :
    1 ≤ leadingOne x ∧ 2 ^ (leadingOne x - 1) ≤ x.toNat ∧ x.toNat < 2 ^ leadingOne x :=
  ⟨one_le_leadingOne h, two_pow_pred_leadingOne_le h, lt_two_pow_leadingOne x⟩

/-- The two powers of two around a word other than 0 single out the position. -/
theorem bounds_iff_leadingOne_eq {x : Word} (h : x ≠ 0) (i : Nat) :
    (1 ≤ i ∧ 2 ^ (i - 1) ≤ x.toNat ∧ x.toNat < 2 ^ i) ↔ leadingOne x = i := by
  constructor
  · rintro ⟨hi, hlo, hhi⟩
    have hge := (lt_leadingOne_iff x (i - 1)).mpr hlo
    have hle := (leadingOne_le_iff x i).mpr hhi
    omega
  · rintro rfl
    exact one_le_leadingOne_and_bounds h

theorem leadingOne_eq_log2_add_one {x : Word} (h : x ≠ 0) : leadingOne x = Nat.log2 x.toNat + 1 := by
  have hne : x.toNat ≠ 0 := fun h0 => h (BitVec.eq_of_toNat_eq h0)
  rw [leadingOne_eq_bitlen, bitlen, if_neg hne]

/-- Above the position there are only zero bits. -/
theorem getLsbD_eq_false_of_leadingOne_le {x : Word} {j : Nat} (h : leadingOne x ≤ j) : x.getLsbD j = false :=
  Nat.testBit_eq_false_of_lt ((leadingOne_le_iff x j).mp h)

/-- A one bit lies below the position. -/
theorem lt_leadingOne_of_getLsbD {x : Word} {k : Nat} (h : x.getLsbD k = true) : k < leadingOne x :=
  (lt_leadingOne_iff x k).mpr (Nat.ge_two_pow_of_testBit h)

/-- The bit below the position is the leading one itself. -/
theorem getLsbD_leadingOne_sub_one {x : Word} (h : 1 ≤ leadingOne x) : x.getLsbD (leadingOne x - 1) = true := by
  have hlo : 2 ^ (leadingOne x - 1) ≤ x.toNat := (lt_leadingOne_iff x _).mp (by omega)
  have hhi : x.toNat < 2 ^ (leadingOne x - 1 + 1) := (leadingOne_le_iff x _).mp (by omega)
  exact Nat.testBit_of_two_pow_le_and_two_pow_add_one_gt hlo hhi

/-- The priority encoder: the highest one bit is at k where the position is k + 1. -/
theorem leadingOne_eq_succ_of_highest_one {x : Word} {k : Nat} (hk : x.getLsbD k = true)
    (habove : ∀ j, k < j → x.getLsbD j = false) : leadingOne x = k + 1 := by
  have hlt := lt_leadingOne_of_getLsbD hk
  by_contra hne
  have hone := getLsbD_leadingOne_sub_one (x := x) (by omega)
  rw [habove _ (by omega)] at hone
  contradiction

/-- Settles O1: each form follows from the bit length, the priority encoder from the bits around the position. -/
theorem leadingOneEquivalentForms : Obligations.LeadingOneEquivalentForms := fun x =>
  ⟨leadingOne_eq_bitlen x, leadingOne_le_iff x, bounds_iff_leadingOne_eq, leadingOne_eq_log2_add_one,
    (leadingOne_eq_zero_iff x).mpr, fun _ => leadingOne_eq_succ_of_highest_one⟩

/-! ### Consequences (R103) -/

theorem leadingOne_eq_64_iff_two_pow_le (x : Word) : leadingOne x = 64 ↔ 2 ^ 63 ≤ x.toNat := by
  have hle := leadingOne_le x
  rw [← lt_leadingOne_iff]
  omega

theorem leadingOne_eq_64_iff_getLsbD (x : Word) : leadingOne x = 64 ↔ x.getLsbD 63 = true := by
  constructor
  · intro h
    have hone := getLsbD_leadingOne_sub_one (x := x) (by omega)
    rwa [h] at hone
  · intro h
    have hlt := lt_leadingOne_of_getLsbD h
    have hle := leadingOne_le x
    omega

/-- A single one bit is the encoding of a fraction with numerator 1 (R64). -/
theorem one_shiftLeft_eq_encodeFraction (k : Nat) : 1#64 <<< (k - 1) = encodeFraction 1 k := by
  apply BitVec.eq_of_toNat_eq
  rw [BitVec.toNat_shiftLeft, Nat.shiftLeft_eq, encodeFraction, BitVec.toNat_ofNat]
  simp

theorem leadingOne_one_shiftLeft {k : Nat} (hk : 1 ≤ k) (hk' : k ≤ 64) : leadingOne (1#64 <<< (k - 1)) = k := by
  rw [one_shiftLeft_eq_encodeFraction]
  exact (encodeFraction_parts hk hk' rfl (Nat.one_lt_two_pow (by omega))).1

theorem value_one_shiftLeft {k : Nat} (hk : 1 ≤ k) (hk' : k ≤ 64) : value (1#64 <<< (k - 1)) = 1 / 2 ^ k := by
  rw [one_shiftLeft_eq_encodeFraction, value_encodeFraction_one hk hk']

/-- Settles O2: the bits around the position, and the single-bit words as encoded fractions. -/
theorem leadingOneConsequences : Obligations.LeadingOneConsequences :=
  ⟨fun x => ⟨leadingOne_eq_zero_iff x, leadingOne_eq_64_iff_getLsbD x, leadingOne_eq_64_iff_two_pow_le x,
      fun h => ⟨getLsbD_leadingOne_sub_one h, fun _ => getLsbD_eq_false_of_leadingOne_le⟩⟩,
    fun _ hk hk' => ⟨leadingOne_one_shiftLeft hk hk', value_one_shiftLeft hk hk'⟩⟩

/-! ### The command `LOD` (R101) -/

theorem exec_lod (a b : Word) (s : State) :
    exec (.lod a b) s = .next { s with y := zext64 (lodUnit a), status := Status.ok.code } := by
  rw [exec_eq_complete, outcomeOf, lodOutcome, complete_ok]

/-- Settles O11: the detector's position reaches `y` without loss, and its definition and bounds say which it is. -/
theorem lodGivesLeadingOne : Obligations.LodGivesLeadingOne := by
  intro a b s
  refine ⟨rfl, _, exec_lod a b s, rfl, ?_⟩
  simp only [zext64_lodUnit_toNat]
  exact ⟨leadingOne_le a, rfl, (leadingOne_eq_zero_iff a).mpr, one_le_leadingOne_and_bounds⟩

end Sys2Proof.Proofs
end

section
/-! PROOFS. The mantissa (41_mantissa.md): the masks, the bits they isolate, the odd numerator and its range, and the
command `MANT`. -/

namespace Sys2Proof.Proofs

open Sys2Proof.Machine Sys2Proof.Safety Sys2Proof.Laws

/-! ### The masks (R120, R121) -/

theorem maskWidth_eq (i : Nat) : maskWidth i = i - 1 := satSub_eq i 1

/-- A mask is ones below its width. -/
theorem mask_getLsbD {i : Nat} (hi : i ≤ 64) (k : Nat) : (mask i).getLsbD k = decide (k < i - 1) := by
  rw [BitVec.getLsbD, mask_toNat hi, Nat.testBit_two_pow_sub_one]

theorem mask_toNat_add_one {i : Nat} (hi : i ≤ 64) : (mask i).toNat + 1 = 2 ^ (i - 1) := by
  rw [mask_toNat hi, Nat.sub_add_cancel Nat.one_le_two_pow]

/-- Settles O3: the clamped width is `LO(x) - 1`, and a mask is that many ones. -/
theorem maskValues : Obligations.MaskValues := by
  refine ⟨fun x => ?width, by decide, by decide, by decide, fun i _ hi => mask_toNat_add_one hi,
    fun i hi => ?topBit⟩
  case width =>
    have hle := leadingOne_le x
    rw [maskWidth_eq]
    omega
  case topBit =>
    rw [mask_getLsbD hi, decide_eq_false_iff_not]
    omega

/-! ### The isolated bits and the numerator (R122, R125, R126) -/

theorem ne_zero_of_one_le_leadingOne {x : Word} (h : 1 ≤ leadingOne x) : x ≠ 0 :=
  mt (leadingOne_eq_zero_iff x).mpr (by omega)

/-- The mask clears exactly the leading one, in the integers. -/
theorem mantissaBits_toNat_cast {x : Word} (h : x ≠ 0) :
    ((mantissaBits x).toNat : Int) = (x.toNat : Int) - 2 ^ (leadingOne x - 1) := by
  rw [← mantissaBits_add h]
  push_cast
  ring

theorem mantissa_toNat_cast {x : Word} (h : x ≠ 0) :
    ((mantissa x).toNat : Int) = 2 * (x.toNat : Int) - 2 ^ leadingOne x + 1 := by
  have hsum : ((mantissa x).toNat : Int) + 2 ^ leadingOne x = 2 * (x.toNat : Int) + 1 := by
    exact_mod_cast mantissa_add h
  rw [eq_sub_of_add_eq hsum]
  ring

/-- Settles O5: the leading one and the bits below it add up to the word. -/
theorem isolationIdentity : Obligations.IsolationIdentity :=
  ⟨fun _ h => ⟨mantissaBits_toNat_cast h, mantissa_toNat_cast h⟩, by decide, mantissa_zero⟩

/-- Settles O6: the word is rebuilt from its leading one and half its numerator. -/
theorem wordFromItsParts : Obligations.WordFromItsParts :=
  ⟨fun x => ⟨(leadingOne_eq_zero_iff x).mp, fun h => toNat_eq_parts (ne_zero_of_one_le_leadingOne h)⟩,
    fun _ _ => eq_of_leadingOne_eq_of_mantissa_eq⟩

/-! ### The range of the numerator (R124) -/

theorem mantissa_eq_one_of_leadingOne_eq_zero {x : Word} (h : leadingOne x = 0) : (mantissa x).toNat = 1 := by
  rw [(leadingOne_eq_zero_iff x).mp h]
  decide

/-- The bounds of the numerator of a word other than 0. -/
theorem mantissa_bounds {x : Word} (h : 1 ≤ leadingOne x) :
    1 ≤ (mantissa x).toNat ∧ (mantissa x).toNat ≤ 2 ^ leadingOne x - 1 ∧
      bitlen (mantissa x).toNat ≤ leadingOne x := by
  have hodd := mantissa_odd x
  have hlt := mantissa_lt (ne_zero_of_one_le_leadingOne h)
  exact ⟨by omega, Nat.le_sub_one_of_lt hlt, (bitlen_le_iff _ _).mpr hlt⟩

/-- Only the zero word's numerator reaches `2^LO(x)`. -/
theorem leadingOne_eq_zero_of_mantissa_eq {x : Word} (h : (mantissa x).toNat = 2 ^ leadingOne x) :
    leadingOne x = 0 := by
  by_contra hne
  exact (mantissa_lt (mt (leadingOne_eq_zero_iff x).mpr hne)).ne h

/-- Below exponent 64 the numerator has at most 63 bits: it is odd, so it is not `2^63`. -/
theorem mantissa_le_of_leadingOne_le_63 {x : Word} (h : leadingOne x ≤ 63) :
    (mantissa x).toNat ≤ 2 ^ 63 - 1 := by
  have hodd := mantissa_odd x
  have hle : (mantissa x).toNat ≤ 2 ^ 63 := (mantissa_le x).trans (Nat.pow_le_pow_right two_pos h)
  omega

/-- Every odd number of the range is the numerator of an encoded fraction. -/
theorem exists_word_of_odd {i m : Nat} (hi : 1 ≤ i) (hi' : i ≤ 64) (hodd : m % 2 = 1) (hm : m ≤ 2 ^ i - 1) :
    ∃ x : Word, leadingOne x = i ∧ (mantissa x).toNat = m :=
  ⟨encodeFraction m i, encodeFraction_parts hi hi' hodd (Nat.lt_of_le_sub_one Nat.one_le_two_pow hm)⟩

/-- Settles O4: the numerator is odd and below `2^LO(x)` but for the zero word, and encoded fractions fill the range. -/
theorem numeratorRange : Obligations.NumeratorRange :=
  ⟨fun x => ⟨mantissa_odd x,
      fun h => ⟨(leadingOne_eq_zero_iff x).mp h, mantissa_eq_one_of_leadingOne_eq_zero h⟩,
      mantissa_bounds, mantissa_le x, leadingOne_eq_zero_of_mantissa_eq, mantissa_le_of_leadingOne_le_63⟩,
    fun _ _ => exists_word_of_odd, by decide⟩

/-! ### The command `MANT` (R123) -/

theorem mantissaBits_getLsbD (x : Word) (k : Nat) :
    (mantissaBits x).getLsbD k = (x.getLsbD k && decide (k + 1 < leadingOne x)) := by
  rw [mantissaBits, BitVec.getLsbD_and, mask_getLsbD (leadingOne_le x), decide_eq_decide.mpr Nat.lt_sub_iff_add_lt]

theorem mantissa_getLsbD_zero (x : Word) : (mantissa x).getLsbD 0 = true := by
  rw [BitVec.getLsbD, Nat.testBit_zero, mantissa_odd]
  rfl

/-- The numerator is the isolated bits moved up by one (R122). -/
theorem mantissa_getLsbD_succ (x : Word) (k : Nat) : (mantissa x).getLsbD (k + 1) = (mantissaBits x).getLsbD k := by
  have hhalf : (2 * (mantissaBits x).toNat + 1) / 2 = (mantissaBits x).toNat := by omega
  rw [BitVec.getLsbD, Nat.testBit_succ, mantissa_toNat, hhalf, BitVec.getLsbD]

theorem exec_mant (a b : Word) (s : State) :
    exec (.mant a b) s = .next { s with y := mantissa a, status := Status.ok.code } := by
  rw [exec_eq_complete, outcomeOf, mantOutcome, mexUnit, complete_ok]

/-- Settles O12: the numerator reaches `y`, and its bits are the isolated bits above a one. -/
theorem mantGivesOddNumerator : Obligations.MantGivesOddNumerator := fun a b s =>
  ⟨rfl, _, exec_mant a b s, rfl, mantissa_getLsbD_zero a,
    fun k _ => (mantissa_getLsbD_succ a k).trans (mantissaBits_getLsbD a k)⟩

end Sys2Proof.Proofs
end

section
/-! PROOFS. The multiplier (42_multiply.md): the exponent sum, the word of a product, the laws of `CHECKED_MUL`, and the
commands `CMUL` and `MUL`. -/

namespace Sys2Proof.Proofs

open Sys2Proof.Machine Sys2Proof.Safety Sys2Proof.Laws

/-! ### The exponent sum (R140) -/

theorem exponentSum_le (a b : Word) : exponentSum a b ≤ 128 := by
  have ha := leadingOne_le a
  have hb := leadingOne_le b
  rw [exponentSum]
  omega

theorem exponentSum_comm (a b : Word) : exponentSum a b = exponentSum b a := Nat.add_comm _ _

theorem exponentSum_minWord : exponentSum minWord minWord = 128 := by decide

/-- Settles O17: each exponent is at most 64, and two `MIN` operands reach the largest sum. -/
theorem exponentSumIsExact : Obligations.ExponentSumIsExact :=
  ⟨fun a b => ⟨rfl, exponentSum_le a b⟩, exponentSum_minWord,
    (checkedMul_eq_none_iff _ _).mpr (by rw [exponentSum_minWord]; decide)⟩

/-! ### What a product is, in values

A word is determined by its value (R67), so the value of a product settles its exponent, its numerator and its word. -/

/-- The exponent and the numerator of a word with the value of a product. -/
theorem parts_of_value_eq_mul {a b y : Word} (h : value y = value a * value b) :
    (mantissa y).toNat = numeratorProduct a b ∧ leadingOne y = exponentSum a b :=
  odd_div_two_pow_inj (mantissa_odd y) (numeratorProduct_odd a b) (h.trans (value_mul_value a b))

/-- The product is the word of the exact value, where the exponent test passes. -/
theorem checkedMul_eq_some_iff {a b y : Word} :
    checkedMul a b = some y ↔ exponentSum a b ≤ 63 ∧ value y = value a * value b := by
  constructor
  · intro h
    have hsum : ¬ 64 ≤ exponentSum a b := fun hover => by
      rw [(checkedMul_eq_none_iff a b).mpr hover] at h
      contradiction
    exact ⟨by omega, value_of_checkedMul h⟩
  · rintro ⟨hsum, hval⟩
    obtain ⟨z, hz⟩ := Option.ne_none_iff_exists'.mp (mt (checkedMul_eq_none_iff a b).mp (by omega))
    rw [hz, value_injective ((value_of_checkedMul hz).trans hval.symm)]

theorem leadingOne_of_checkedMul {a b y : Word} (h : checkedMul a b = some y) :
    leadingOne y = leadingOne a + leadingOne b :=
  (parts_of_value_eq_mul (value_of_checkedMul h)).2

theorem isSome_checkedMul_iff (a b : Word) :
    (checkedMul a b).isSome = true ↔ leadingOne a + leadingOne b ≤ 63 := by
  rw [Option.isSome_iff_ne_none, Ne, checkedMul_eq_none_iff, not_le, Nat.lt_succ_iff, exponentSum]

/-! ### The composition of a product (R146, R147) -/

theorem checkedMul_eq_highBit_add {a b : Word} (h : exponentSum a b ≤ 63) :
    checkedMul a b = some (highBit (exponentSum a b) + productBits a b) := by
  rw [checkedMul, if_neg (by omega)]

/-- The numerator of a product below the overflow leaves the top bit free. -/
theorem numeratorProduct_lt_two_pow_63 {a b : Word} (h : 1 ≤ exponentSum a b) (h' : exponentSum a b ≤ 63) :
    numeratorProduct a b < 2 ^ 63 :=
  (numeratorProduct_lt h).trans_le (Nat.pow_le_pow_right two_pos h')

/-- The invariant the source leaves open: the mantissa bits stay below the high bit. -/
theorem productBits_lt_highBit {a b : Word} (h : 1 ≤ exponentSum a b) (h' : exponentSum a b ≤ 63) :
    (productBits a b).toNat < (highBit (exponentSum a b)).toNat := by
  have hdouble : 2 ^ exponentSum a b = 2 * 2 ^ (exponentSum a b - 1) := by
    rw [← pow_succ', Nat.sub_add_cancel h]
  have hlt := numeratorProduct_lt h
  rw [productBits_toNat h', highBit_toNat (by omega), if_neg (by omega)]
  omega

theorem highBit_and_eq_zero {n : Nat} {x : Word} (hn : 1 ≤ n) (hn' : n ≤ 64) (h : x.toNat < (highBit n).toNat) :
    highBit n &&& x = 0 := by
  rw [highBit_toNat hn', if_neg (by omega)] at h
  apply BitVec.eq_of_toNat_eq
  rw [BitVec.toNat_and, highBit_toNat hn', if_neg (by omega), Nat.two_pow_and, Nat.testBit_eq_false_of_lt h]
  rfl

/-- High bit and mantissa bits have no bit in common, so that adding them never carries. -/
theorem highBit_and_productBits {a b : Word} (h : exponentSum a b ≤ 63) :
    highBit (exponentSum a b) &&& productBits a b = 0 := by
  by_cases h0 : exponentSum a b = 0
  · rw [h0]
    exact BitVec.zero_and
  · exact highBit_and_eq_zero (by omega) (by omega) (productBits_lt_highBit (by omega) h)

theorem eq_encodeFraction_of_value_eq_mul {a b y : Word} (h : 1 ≤ exponentSum a b) (h' : exponentSum a b ≤ 63)
    (hval : value y = value a * value b) : y = encodeFraction (numeratorProduct a b) (exponentSum a b) := by
  apply value_injective
  rw [value_encodeFraction h (by omega) (numeratorProduct_odd a b) (numeratorProduct_lt h), hval, value_mul_value]

theorem toNat_lt_of_checkedMul {a b y : Word} (h : checkedMul a b = some y) : y.toNat < 2 ^ 63 := by
  rw [← leadingOne_le_iff, leadingOne_of_checkedMul h]
  exact (checkedMul_eq_some_iff.mp h).1

/-- Settles O15: the mantissa bits stay below the high bit, and the exact value determines the word's parts. -/
theorem productBitsNeverReachHighBit : Obligations.ProductBitsNeverReachHighBit := by
  intro a b hsum
  have hprod := checkedMul_eq_highBit_add hsum
  have hval := value_of_checkedMul hprod
  have hand := highBit_and_productBits hsum
  obtain ⟨hmant, hlo⟩ := parts_of_value_eq_mul hval
  refine ⟨_, hprod, rfl, BitVec.add_eq_or_of_and_eq_zero _ _ hand, hand, fun h0 => ?zero, fun h1 => ?pos, hval⟩
  case zero =>
    obtain ⟨rfl, rfl⟩ := (exponentSum_eq_zero_iff a b).mp h0
    decide
  case pos =>
    exact ⟨productBits_lt_highBit h1 hsum, hlo, hmant, numeratorProduct_lt_two_pow_63 h1 hsum,
      toNat_lt_of_checkedMul hprod, eq_encodeFraction_of_value_eq_mul h1 hsum hval⟩

/-! ### The laws of `CHECKED_MUL` (R149) -/

theorem checkedMul_comm (a b : Word) : checkedMul a b = checkedMul b a := by
  ext y
  rw [checkedMul_eq_some_iff, checkedMul_eq_some_iff, exponentSum_comm, mul_comm (value a)]

/-- `MAX` is the identity, where there is a product. -/
theorem checkedMul_maxWord {b : Word} (h : b.toNat < 2 ^ 63) : checkedMul maxWord b = some b := by
  have hval : value b = value maxWord * value b := by rw [maxWord, value_zero, one_mul]
  have hsum : exponentSum maxWord b = leadingOne b := Nat.zero_add _
  exact checkedMul_eq_some_iff.mpr ⟨hsum ▸ (leadingOne_le_iff b 63).mpr h, hval⟩

theorem checkedMul_maxWord_eq_none {b : Word} (h : 2 ^ 63 ≤ b.toNat) : checkedMul maxWord b = none := by
  have hlo := (leadingOne_eq_64_iff_two_pow_le b).mpr h
  rw [checkedMul_eq_none_iff, exponentSum, hlo]
  exact Nat.le_add_left _ _

theorem isSome_checkedMul_bind_iff (a b c : Word) :
    ((checkedMul a b).bind fun y => checkedMul y c).isSome = true ↔
      leadingOne a + leadingOne b + leadingOne c ≤ 63 := by
  cases h : checkedMul a b with
  | none =>
    have hover : 64 ≤ leadingOne a + leadingOne b := (checkedMul_eq_none_iff a b).mp h
    exact iff_of_false (by simp) (by omega)
  | some y => rw [Option.bind_some, isSome_checkedMul_iff, leadingOne_of_checkedMul h]

/-- A product of three, grouped to the left, is again the word of the exact value. -/
theorem checkedMul_bind_eq_some_iff {a b c z : Word} :
    ((checkedMul a b).bind fun y => checkedMul y c) = some z ↔
      leadingOne a + leadingOne b + leadingOne c ≤ 63 ∧ value z = value a * value b * value c := by
  rw [Option.bind_eq_some_iff]
  constructor
  · rintro ⟨y, hy, hz⟩
    obtain ⟨hsum, hval⟩ := checkedMul_eq_some_iff.mp hz
    rw [exponentSum, leadingOne_of_checkedMul hy] at hsum
    exact ⟨hsum, by rw [hval, value_of_checkedMul hy]⟩
  · rintro ⟨hsum, hval⟩
    obtain ⟨y, hy⟩ := Option.isSome_iff_exists.mp ((isSome_checkedMul_iff a b).mpr (by omega))
    refine ⟨y, hy, checkedMul_eq_some_iff.mpr ⟨?_, by rw [hval, value_of_checkedMul hy]⟩⟩
    rwa [exponentSum, leadingOne_of_checkedMul hy]

/-- The grouping to the right is one to the left, of the operands in another order. -/
theorem checkedMul_bind_right (a b c : Word) :
    ((checkedMul b c).bind fun y => checkedMul a y) = (checkedMul b c).bind fun y => checkedMul y a := by
  simp only [checkedMul_comm a]

theorem checkedMul_assoc (a b c : Word) :
    ((checkedMul a b).bind fun y => checkedMul y c) = (checkedMul b c).bind fun y => checkedMul a y := by
  rw [checkedMul_bind_right]
  ext z
  rw [checkedMul_bind_eq_some_iff, checkedMul_bind_eq_some_iff, add_rotate, mul_rotate]

theorem leadingOne_ne_64_of_checkedMul {a b y : Word} (h : checkedMul a b = some y) : leadingOne y ≠ 64 := by
  rw [Ne, leadingOne_eq_64_iff_two_pow_le, not_le]
  exact toNat_lt_of_checkedMul h

theorem ne_minWord_of_checkedMul {a b y : Word} (h : checkedMul a b = some y) : y ≠ minWord := by
  rintro rfl
  exact leadingOne_ne_64_of_checkedMul h (by decide)

theorem checkedMul_eq_some_zero_iff (a b : Word) : checkedMul a b = some 0 ↔ a = 0 ∧ b = 0 := by
  constructor
  · intro h
    rw [← exponentSum_eq_zero_iff, exponentSum, ← leadingOne_of_checkedMul h]
    exact leadingOne_zero
  · rintro ⟨rfl, rfl⟩
    exact checkedMul_maxWord (by decide)

/-- Settles O16: the product is the word of the exact value where the exponents allow one, and values multiply. -/
theorem checkedMulLaws : Obligations.CheckedMulLaws := by
  refine ⟨isSome_checkedMul_iff, fun _ _ _ => leadingOne_of_checkedMul, fun _ _ _ => value_of_checkedMul,
    checkedMul_comm, fun _ => ⟨checkedMul_maxWord, checkedMul_maxWord_eq_none⟩, fun a b c => ?assoc,
    fun _ _ _ h => ⟨toNat_lt_of_checkedMul h, leadingOne_ne_64_of_checkedMul h, ne_minWord_of_checkedMul h⟩,
    checkedMul_eq_some_zero_iff⟩
  case assoc =>
    have hleft := isSome_checkedMul_bind_iff a b c
    exact ⟨hleft, checkedMul_assoc a b c ▸ hleft, checkedMul_assoc a b c⟩

/-! ### The commands `CMUL` and `MUL` (R148, R150) -/

/-- An instruction whose outcome is a word gives it on `y` and leaves the rest of the state. -/
theorem completes_of_outcome_ok {i : Instr} {s : State} {y : Word} {P : Word → Prop}
    (h : outcomeOf s.params i = .ok y) (hy : P y) : Completes i s fun t => GivesResult s t ∧ P t.y := by
  refine ⟨{ s with y := y, status := Status.ok.code }, ?_, rfl, hy⟩
  rw [exec_eq_complete, h, complete_ok]

/-- An instruction without a result reports its status and leaves the inputs and the parameters. -/
theorem completes_of_outcome_status {i : Instr} {s : State} {st : Status} (h : (outcomeOf s.params i).status = st) :
    Completes i s fun t => GivesNoResult st s t := by
  subst h
  exact ⟨_, exec_eq_complete i s, rfl⟩

/-- Both commands carry the exact product, with its exponent, where the exponent sum is at most 63. -/
theorem exists_product_with_exponent {a b : Word} (h : leadingOne a + leadingOne b ≤ 63) :
    ∃ y, (value y = value a * value b ∧ leadingOne y = leadingOne a + leadingOne b) ∧
      cmulOutcome a b = .ok y ∧ mulOutcome a b = .ok y := by
  obtain ⟨y, hval, houtcomes⟩ := exists_product_of_not_overflow (a := a) (b := b) (not_le.mpr (Nat.lt_succ_of_le h))
  exact ⟨y, ⟨hval, (parts_of_value_eq_mul hval).2⟩, houtcomes⟩

/-- Settles O13: the exponent test decides between the exact product on `y` and `ABSENT`. -/
theorem cmulGivesExactProductOrAbsent : Obligations.CmulGivesExactProductOrAbsent := by
  refine fun a b s => ⟨rfl, fun h => ?product, fun h => ?absent⟩
  case product =>
    obtain ⟨y, hy, hcmul, -⟩ := exists_product_with_exponent h
    exact completes_of_outcome_ok (P := fun y => value y = _ ∧ leadingOne y = _) hcmul hy
  case absent => exact completes_of_outcome_status (congrArg CmdOutcome.status (cmulOutcome_of_overflow h))

/-- Settles O14: the exponent test decides between the exact product on `y` and `PRECISION_ERROR`. -/
theorem mulGivesExactProductOrPrecisionError : Obligations.MulGivesExactProductOrPrecisionError := by
  refine fun a b s => ⟨rfl, fun h => ?product, fun h => ?fault⟩
  case product =>
    obtain ⟨y, hy, -, hmul⟩ := exists_product_with_exponent h
    exact completes_of_outcome_ok (P := fun y => value y = _ ∧ leadingOne y = _) hmul hy
  case fault => exact completes_of_outcome_status (congrArg CmdOutcome.status (mulOutcome_of_overflow h))

end Sys2Proof.Proofs
end

section
/-! PROOFS. The converter (43_float_convert.md): what rounding does to the numerator, the value a converted pattern
stands for, that no other value of the format is nearer, and the commands `CVTD` and `CVTS`. -/

namespace Sys2Proof.Proofs

open Sys2Proof.Machine Sys2Proof.Safety Sys2Proof.Laws

/-! ### The discarded bits of an odd numerator (R177) -/

theorem discardedBits_odd {P m : Nat} (hm : m % 2 = 1) (hd : 1 ≤ discardCount P m) : discardedBits P m % 2 = 1 := by
  rw [discardedBits_eq, Nat.mod_mod_of_dvd _ (dvd_pow_self 2 (by omega)), hm]

theorem add_discardCount {P m : Nat} (h : P ≤ bitlen m) : P + discardCount P m = bitlen m :=
  Nat.add_sub_of_le h

theorem one_le_discardCount {P m : Nat} (h : P < bitlen m) : 1 ≤ discardCount P m :=
  Nat.le_sub_of_add_le' h

/-- Odd discarded bits are a power of two only as the single bit 1. -/
theorem discardCount_eq_one_of_tie {P m : Nat} (hm : m % 2 = 1) (hd : 1 ≤ discardCount P m)
    (htie : discardedBits P m = 2 ^ (discardCount P m - 1)) : discardCount P m = 1 := by
  have hodd := discardedBits_odd hm hd
  by_contra hne
  have heven : 2 ∣ 2 ^ (discardCount P m - 1) := dvd_pow_self 2 (by omega)
  omega

/-- Settles O22: the numerator is odd, so its discarded bits are; the tie outcomes are evaluated. -/
theorem conversionTies : Obligations.ConversionTies := by
  refine ⟨fun x P hd => ⟨discardedBits_odd (mantissa_odd x) hd, fun htie => ?one⟩,
    by decide, by decide, by decide, by decide⟩
  case one =>
    rw [Nat.one_shiftLeft] at htie
    have hone := discardCount_eq_one_of_tie (mantissa_odd x) hd htie
    exact ⟨hone, by rw [discardCount] at hone; omega⟩

/-! ### The error of the rounding step (R171) -/

/-- Rounding moves the numerator by at most half a unit, and by exactly half only to an even significand. -/
theorem roundedSig_error {P m : Nat} (hd : 1 ≤ discardCount P m) :
    2 * |(roundedSig P m : Int) * 2 ^ discardCount P m - m| ≤ 2 ^ discardCount P m ∧
      (2 * |(roundedSig P m : Int) * 2 ^ discardCount P m - m| = 2 ^ discardCount P m → roundedSig P m % 2 = 0) := by
  have hunit : (2 : Int) ^ discardCount P m = 2 * (2 ^ (discardCount P m - 1) : Nat) := by
    rw [Nat.cast_pow, Nat.cast_ofNat, ← pow_succ', Nat.sub_add_cancel hd]
  have hsum : (truncatedSig P m : Int) * 2 ^ discardCount P m + discardedBits P m = m := by
    exact_mod_cast truncatedSig_add_discardedBits P m
  have hlt : discardedBits P m < 2 ^ discardCount P m := by
    rw [discardedBits_eq]; exact Nat.mod_lt _ (by positivity)
  have hlt' : (discardedBits P m : Int) < 2 ^ discardCount P m := by exact_mod_cast hlt
  obtain ⟨hq, hbits⟩ | ⟨hq, hbits⟩ := roundedSig_cases (P := P) (m := m) rfl
  · have herr : (roundedSig P m : Int) * 2 ^ discardCount P m - m =
        2 ^ discardCount P m - discardedBits P m := by
      rw [hq, ← hsum]; push_cast; ring
    rw [herr, abs_of_nonneg (by omega), hunit]
    omega
  · have herr : (roundedSig P m : Int) * 2 ^ discardCount P m - m = -discardedBits P m := by
      rw [hq, ← hsum]; ring
    rw [herr, abs_neg, abs_of_nonneg (by omega), hunit]
    omega

/-! ### The fields of a converted pattern (R172, R175) -/

/-- The value `s * 2^(E - (P - 1))` that R172 gives a conversion. -/
def convertedValue (f : FloatFormat) (x : Word) : Rat :=
  (roundNumerator f.precision (mantissa x).toNat).sig * 2 ^ (unbiasedExponent f x - ((f.precision : Int) - 1))

theorem mantissa_toNat_ne_zero (x : Word) : (mantissa x).toNat ≠ 0 := by
  have hodd := mantissa_odd x
  omega

/-- The numerator is below `2^LO(x)`, or is 1 for the zero word; a carry adds one more bit to its length. -/
theorem roundNumerator_len_bounds {P : Nat} (hP : 1 ≤ P) (x : Word) :
    1 ≤ (roundNumerator P (mantissa x).toNat).len ∧
      (roundNumerator P (mantissa x).toNat).len ≤ leadingOne x + 1 := by
  have hpos := (bitlen_pos_iff _).mpr (mantissa_toNat_ne_zero x)
  have hlen := bitlen_mantissa_cases x
  obtain ⟨h, hround⟩ | ⟨h, -, hround⟩ | ⟨h, -, hround⟩ := roundNumerator_cases (m := (mantissa x).toNat) hP
  all_goals
    rw [hround]
    dsimp only
    omega

section Format
variable {f : FloatFormat}

theorem unbiasedExponent_bounds (hP : 1 ≤ f.precision) (x : Word) :
    -64 ≤ unbiasedExponent f x ∧ unbiasedExponent f x ≤ 0 := by
  have hlen := roundNumerator_len_bounds hP x
  have hlo := leadingOne_le x
  rw [unbiasedExponent]
  omega

/-- No conversion underflows: the biased exponent is a natural number. -/
theorem biasedExponent_cast (hP : 1 ≤ f.precision) (hbias : 65 ≤ f.bias) (x : Word) :
    (biasedExponent f x : Int) = unbiasedExponent f x + f.bias := by
  have hE := unbiasedExponent_bounds hP x
  rw [biasedExponent, Int.toNat_of_nonneg (by omega)]

theorem biasedExponent_bounds (hP : 1 ≤ f.precision) (hbias : 65 ≤ f.bias) (x : Word) :
    f.bias - 64 ≤ biasedExponent f x ∧ biasedExponent f x ≤ f.bias := by
  have hE := unbiasedExponent_bounds hP x
  have hcast := biasedExponent_cast hP hbias x
  omega

/-- The fraction field is the significand without its leading one. -/
theorem fractionField_add (hP : 1 ≤ f.precision) (x : Word) :
    fractionField f x + 2 ^ (f.precision - 1) = (roundNumerator f.precision (mantissa x).toNat).sig := by
  have hsig := roundNumerator_sig_bounds hP (mantissa_toNat_ne_zero x)
  rw [fractionField, Nat.one_shiftLeft, Nat.sub_add_cancel hsig.1]

theorem fractionField_lt (hP : 1 ≤ f.precision) (x : Word) : fractionField f x < 2 ^ (f.precision - 1) := by
  have hsig := roundNumerator_sig_bounds hP (mantissa_toNat_ne_zero x)
  have hadd := fractionField_add hP x
  have hdouble : 2 ^ f.precision = 2 * 2 ^ (f.precision - 1) := by rw [← pow_succ', Nat.sub_add_cancel hP]
  omega

/-- The fields stand for the value of the conversion, as a normal number. -/
theorem fieldsValue_converted (hP : 1 ≤ f.precision) (hbias : 65 ≤ f.bias) (x : Word) :
    fieldsValue f false (biasedExponent f x) (fractionField f x) = convertedValue f x := by
  have hE := biasedExponent_bounds hP hbias x
  have hsig : (2 : Rat) ^ (f.precision - 1) + fractionField f x =
      (roundNumerator f.precision (mantissa x).toNat).sig := by
    rw [← fractionField_add hP, add_comm]; push_cast; rfl
  rw [fieldsValue, convertedValue, if_neg Bool.false_ne_true, one_mul, if_neg (by omega), hsig,
    biasedExponent_cast hP hbias, add_sub_cancel_right]

/-! ### The value of a conversion -/

/-- The weight of the last bit kept of the operand's value. -/
def keptUnit (f : FloatFormat) (x : Word) : Rat :=
  2 ^ ((discardCount f.precision (mantissa x).toNat : Int) - leadingOne x)

theorem keptUnit_pos (x : Word) : 0 < keptUnit f x := by
  unfold keptUnit; positivity

theorem keptUnit_eq_div (x : Word) :
    keptUnit f x = 2 ^ discardCount f.precision (mantissa x).toNat / 2 ^ leadingOne x := by
  rw [keptUnit, zpow_sub₀ two_ne_zero, zpow_natCast, zpow_natCast]

/-- A numerator that fits the significand is converted exactly. -/
theorem convertedValue_of_fits (hP : 1 ≤ f.precision) {x : Word}
    (h : bitlen (mantissa x).toNat ≤ f.precision) : convertedValue f x = value x := by
  obtain ⟨-, hround⟩ | ⟨hlong, -⟩ | ⟨hlong, -⟩ := roundNumerator_cases (m := (mantissa x).toNat) hP
  · have hexp : (bitlen (mantissa x).toNat : Int) - leadingOne x - 1 - (f.precision - 1) =
        -((f.precision - bitlen (mantissa x).toNat : Nat) : Int) - leadingOne x := by
      omega
    rw [convertedValue, unbiasedExponent, hround, value]
    dsimp only
    rw [hexp, zpow_sub₀ two_ne_zero, zpow_neg, zpow_natCast, zpow_natCast]
    push_cast
    field_simp
  · omega
  · omega

/-- Else the rounded significand counts units of the last bit kept, with or without a carry out. -/
theorem convertedValue_of_rounded (hP : 1 ≤ f.precision) {x : Word}
    (h : f.precision < bitlen (mantissa x).toNat) :
    convertedValue f x = roundedSig f.precision (mantissa x).toNat * keptUnit f x := by
  have hd : (discardCount f.precision (mantissa x).toNat : Int) = bitlen (mantissa x).toNat - f.precision :=
    Int.ofNat_sub h.le
  obtain ⟨hshort, -⟩ | ⟨-, -, hround⟩ | ⟨-, hcarry, hround⟩ :=
    roundNumerator_cases (m := (mantissa x).toNat) hP
  · omega
  · rw [convertedValue, unbiasedExponent, hround, keptUnit, hd]
    congr 2
    ring
  · rw [convertedValue, unbiasedExponent, hround, keptUnit, hd, hcarry, Nat.cast_pow, Nat.cast_pow, Nat.cast_ofNat,
      ← zpow_natCast, ← zpow_natCast, ← zpow_add₀ two_ne_zero, ← zpow_add₀ two_ne_zero]
    congr 1
    push_cast [hP]
    ring

/-- The distance to the operand's value is the error of the rounding step, over `2^LO(x)`. -/
theorem convertedValue_sub_value (hP : 1 ≤ f.precision) {x : Word} (h : f.precision < bitlen (mantissa x).toNat) :
    convertedValue f x - value x =
      ((roundedSig f.precision (mantissa x).toNat : Int) * 2 ^ discardCount f.precision (mantissa x).toNat -
        (mantissa x).toNat : Int) / 2 ^ leadingOne x := by
  rw [convertedValue_of_rounded hP h, keptUnit_eq_div, value]
  push_cast
  ring

/-- Twice the error is at most a unit, and a whole unit only where the significand is even. -/
theorem convertedValue_error (hP : 1 ≤ f.precision) {x : Word} (h : f.precision < bitlen (mantissa x).toNat) :
    2 * |convertedValue f x - value x| ≤ keptUnit f x ∧
      (2 * |convertedValue f x - value x| = keptUnit f x → roundedSig f.precision (mantissa x).toNat % 2 = 0) := by
  obtain ⟨hle, htie⟩ := roundedSig_error (one_le_discardCount h)
  have hpow : (0 : Rat) < 2 ^ leadingOne x := by positivity
  rw [convertedValue_sub_value hP h, keptUnit_eq_div, abs_div, abs_of_pos hpow, ← mul_div_assoc,
    div_le_div_iff_of_pos_right hpow, div_left_inj' hpow.ne']
  exact ⟨by exact_mod_cast hle, fun heq => htie (by exact_mod_cast heq)⟩

/-- An operand whose numerator is rounded lies at or above the least significand of `P` bits. -/
theorem two_pow_mul_keptUnit_le_value (hP : 1 ≤ f.precision) {x : Word}
    (h : f.precision < bitlen (mantissa x).toNat) :
    2 ^ (f.precision - 1) * keptUnit f x ≤ value x := by
  have hlen : f.precision - 1 + discardCount f.precision (mantissa x).toNat = bitlen (mantissa x).toNat - 1 := by
    have hadd := add_discardCount h.le
    omega
  rw [keptUnit_eq_div, value, ← mul_div_assoc, ← pow_add, hlen]
  gcongr
  exact_mod_cast two_pow_pred_bitlen_le (mantissa_toNat_ne_zero x)

end Format

/-! ### Reading the converted patterns (R172, R175) -/

/-- The sign bit of a three-field pattern. -/
theorem pattern_getLsbD_sign {e f : Nat} (x : BitVec e) (y : BitVec f) : (0#1 ++ x ++ y).getLsbD (f + e) = false := by
  rw [BitVec.getLsbD_append, if_neg (by omega), Nat.add_sub_cancel_left, BitVec.getLsbD_append, if_neg (by omega),
    BitVec.getLsbD_zero]

/-- The last bit of a three-field pattern is that of the fraction. -/
theorem pattern_getLsbD_zero {e f : Nat} (hf : 0 < f) (x : BitVec e) (n : Nat) :
    (0#1 ++ x ++ BitVec.ofNat f n).getLsbD 0 = decide (n % 2 = 1) := by
  rw [BitVec.getLsbD_append, if_pos hf, BitVec.getLsbD_ofNat, decide_eq_true hf, Bool.true_and, Nat.testBit_zero]

@[simp] theorem cvt64_getLsbD_sign (x : Word) : (cvt64 x).getLsbD 63 = false := pattern_getLsbD_sign _ _

@[simp] theorem cvt32_getLsbD_sign (x : Word) : (cvt32 x).getLsbD 31 = false := pattern_getLsbD_sign _ _

theorem exponent64_cvt64_eq (x : Word) : exponent64 (cvt64 x) = biasedExponent binary64 x := by
  have hle : biasedExponent binary64 x ≤ 1023 := (biasedExponent_bounds (f := binary64) (by decide) (by decide) x).2
  rw [exponent64_cvt64, Nat.mod_eq_of_lt (by omega)]

theorem exponent32_cvt32_eq (x : Word) : exponent32 (cvt32 x) = biasedExponent binary32 x := by
  have hle : biasedExponent binary32 x ≤ 127 := (biasedExponent_bounds (f := binary32) (by decide) (by decide) x).2
  rw [exponent32_cvt32, Nat.mod_eq_of_lt (by omega)]

theorem exponent64_cvt64_bounds (x : Word) : 959 ≤ exponent64 (cvt64 x) ∧ exponent64 (cvt64 x) ≤ 1023 := by
  rw [exponent64_cvt64_eq]
  exact biasedExponent_bounds (f := binary64) (by decide) (by decide) x

theorem exponent32_cvt32_bounds (x : Word) : 63 ≤ exponent32 (cvt32 x) ∧ exponent32 (cvt32 x) ≤ 127 := by
  rw [exponent32_cvt32_eq]
  exact biasedExponent_bounds (f := binary32) (by decide) (by decide) x

theorem float64Value_cvt64 (x : Word) : float64Value (cvt64 x) = convertedValue binary64 x := by
  have hfrac : fractionField binary64 x < 2 ^ 52 := fractionField_lt (f := binary64) (by decide) x
  rw [float64Value, cvt64_getLsbD_sign, exponent64_cvt64_eq, fraction64_cvt64, Nat.mod_eq_of_lt hfrac,
    fieldsValue_converted (by decide) (by decide)]

theorem float32Value_cvt32 (x : Word) : float32Value (cvt32 x) = convertedValue binary32 x := by
  have hfrac : fractionField binary32 x < 2 ^ 23 := fractionField_lt (f := binary32) (by decide) x
  rw [float32Value, cvt32_getLsbD_sign, exponent32_cvt32_eq, fraction32_cvt32, Nat.mod_eq_of_lt hfrac,
    fieldsValue_converted (by decide) (by decide)]

/-! ### When a conversion is exact (R176, R179) -/

/-- A rounded significand would make the numerator even. -/
theorem convertedValue_eq_value_iff {f : FloatFormat} (hP : 1 ≤ f.precision) (x : Word) :
    convertedValue f x = value x ↔ bitlen (mantissa x).toNat ≤ f.precision := by
  refine ⟨fun heq => ?_, convertedValue_of_fits hP⟩
  by_contra hlong
  have hsub := convertedValue_sub_value hP (not_le.mp hlong)
  rw [heq, sub_self, eq_comm, div_eq_zero_iff, or_iff_left (by positivity), Int.cast_eq_zero, sub_eq_zero] at hsub
  have hmul : roundedSig f.precision (mantissa x).toNat * 2 ^ discardCount f.precision (mantissa x).toNat =
      (mantissa x).toNat := by
    exact_mod_cast hsub
  have heven : 2 ∣ (mantissa x).toNat :=
    hmul ▸ Dvd.dvd.mul_left (dvd_pow_self 2 (Nat.one_le_iff_ne_zero.mp (one_le_discardCount (not_le.mp hlong)))) _
  have hodd := mantissa_odd x
  omega

/-- The numerator has no more bits than the exponent says, but for the zero word's single bit. -/
theorem bitlen_mantissa_le_of_leadingOne_le {P : Nat} (hP : 1 ≤ P) {x : Word} (h : leadingOne x ≤ P) :
    bitlen (mantissa x).toNat ≤ P := by
  have hlen := bitlen_mantissa_cases x
  omega

theorem float64Value_cvt64_eq_value_iff (x : Word) :
    float64Value (cvt64 x) = value x ↔ bitlen (mantissa x).toNat ≤ 53 := by
  rw [float64Value_cvt64]
  exact convertedValue_eq_value_iff (f := binary64) (by decide) x

theorem float32Value_cvt32_eq_value_iff (x : Word) :
    float32Value (cvt32 x) = value x ↔ bitlen (mantissa x).toNat ≤ 24 := by
  rw [float32Value_cvt32]
  exact convertedValue_eq_value_iff (f := binary32) (by decide) x

/-- Settles O21: a longer numerator is odd, so that rounding it changes it. -/
theorem conversionExactness : Obligations.ConversionExactness := fun x =>
  ⟨float64Value_cvt64_eq_value_iff x,
    fun h => (float64Value_cvt64_eq_value_iff x).mpr (bitlen_mantissa_le_of_leadingOne_le (by decide) h),
    float32Value_cvt32_eq_value_iff x,
    fun h => (float32Value_cvt32_eq_value_iff x).mpr (bitlen_mantissa_le_of_leadingOne_le (by decide) h)⟩

theorem bitlen_mantissa_one_shiftLeft {k : Nat} (hk : 1 ≤ k) (hk' : k ≤ 64) :
    bitlen (mantissa (1#64 <<< (k - 1))).toNat = 1 := by
  rw [one_shiftLeft_eq_encodeFraction, (encodeFraction_parts hk hk' rfl (Nat.one_lt_two_pow (by omega))).2]
  rfl

/-- Settles O23: the numerator of such a word is 1, which every significand holds. -/
theorem powersOfTwoConvertExactly : Obligations.PowersOfTwoConvertExactly := by
  refine ⟨fun k hk hk' => ?single, ?zero⟩
  case single =>
    rw [← value_one_shiftLeft hk hk', float64Value_cvt64_eq_value_iff, bitlen_mantissa_one_shiftLeft hk hk']
    decide
  case zero =>
    rw [← value_zero, float64Value_cvt64_eq_value_iff]
    decide

/-! ### The range of conversions (R175) -/

/-- Significand and exponent are at least `2^(P-1)` and -64. -/
theorem one_div_two_pow_le_convertedValue {f : FloatFormat} (hP : 1 ≤ f.precision) (x : Word) :
    1 / 2 ^ 64 ≤ convertedValue f x := by
  have hsig : (2 : Rat) ^ ((f.precision : Int) - 1) ≤ (roundNumerator f.precision (mantissa x).toNat).sig := by
    have hle := (roundNumerator_sig_bounds hP (mantissa_toNat_ne_zero x)).1
    rw [show (f.precision : Int) - 1 = (f.precision - 1 : Nat) by omega, zpow_natCast]
    exact_mod_cast hle
  have hE := (unbiasedExponent_bounds hP x).1
  calc (1 : Rat) / 2 ^ 64 = 2 ^ (-64 : Int) := by norm_num
    _ ≤ 2 ^ unbiasedExponent f x := zpow_le_zpow_right₀ one_le_two hE
    _ = 2 ^ ((f.precision : Int) - 1) * 2 ^ (unbiasedExponent f x - ((f.precision : Int) - 1)) := by
      rw [← zpow_add₀ two_ne_zero, add_sub_cancel]
    _ ≤ convertedValue f x := mul_le_mul_of_nonneg_right hsig (by positivity)

/-- A rounded significand is at most `2^P`, and the operand has no more bits than its exponent says. -/
theorem convertedValue_le_one {f : FloatFormat} (hP : 1 ≤ f.precision) (x : Word) : convertedValue f x ≤ 1 := by
  by_cases h : bitlen (mantissa x).toNat ≤ f.precision
  · rw [convertedValue_of_fits hP h]
    exact value_le_one x
  · have hlen := bitlen_mantissa_cases x
    have hsig : (roundedSig f.precision (mantissa x).toNat : Rat) ≤ 2 ^ f.precision := by
      exact_mod_cast (roundedSig_bounds hP (not_le.mp h)).2
    calc convertedValue f x = roundedSig f.precision (mantissa x).toNat * keptUnit f x :=
          convertedValue_of_rounded hP (not_le.mp h)
      _ ≤ 2 ^ f.precision * keptUnit f x := mul_le_mul_of_nonneg_right hsig (keptUnit_pos x).le
      _ = 2 ^ bitlen (mantissa x).toNat / 2 ^ leadingOne x := by
        rw [keptUnit_eq_div, ← mul_div_assoc, ← pow_add, add_discardCount (not_le.mp h).le]
      _ ≤ 1 := by
        rw [div_le_one (by positivity)]
        exact pow_le_pow_right₀ one_le_two (by omega)

/-- The fields where the numerator rounds up to `2^LO(x)`: those of 1.0. -/
theorem fields_of_round_up_to_one {f : FloatFormat} {x : Word}
    (h : roundNumerator f.precision (mantissa x).toNat =
      { sig := 2 ^ (f.precision - 1), len := leadingOne x + 1 }) :
    biasedExponent f x = f.bias ∧ fractionField f x = 0 := by
  refine ⟨?_, ?_⟩
  · rw [biasedExponent, unbiasedExponent, h]
    dsimp only
    omega
  · rw [fractionField, h, Nat.one_shiftLeft, Nat.sub_self]

theorem cvt64_of_round_up_to_one {x : Word}
    (h : roundNumerator 53 (mantissa x).toNat = { sig := 2 ^ 52, len := leadingOne x + 1 }) :
    cvt64 x = 0x3FF0_0000_0000_0000#64 := by
  obtain ⟨hexp, hfrac⟩ := fields_of_round_up_to_one (f := binary64) h
  rw [cvt64, hexp, hfrac]
  decide

theorem cvt32_of_round_up_to_one {x : Word}
    (h : roundNumerator 24 (mantissa x).toNat = { sig := 2 ^ 23, len := leadingOne x + 1 }) :
    cvt32 x = 0x3F80_0000#32 := by
  obtain ⟨hexp, hfrac⟩ := fields_of_round_up_to_one (f := binary32) h
  rw [cvt32, hexp, hfrac]
  decide

/-- Settles O20: exponent and significand bound the value from below, the operand's length from above; a numerator
that rounds up to `2^LO(x)` has the fields of 1.0. -/
theorem conversionRange : Obligations.ConversionRange := by
  refine ⟨fun x => ?range, cvt64_of_round_up_to_one (by decide), cvt32_of_round_up_to_one (by decide),
    cvt64_of_round_up_to_one (by decide), cvt64_of_round_up_to_one (by decide),
    cvt32_of_round_up_to_one (by decide), cvt32_of_round_up_to_one (by decide)⟩
  case range =>
    obtain ⟨hlo64, hhi64⟩ := exponent64_cvt64_bounds x
    obtain ⟨hlo32, hhi32⟩ := exponent32_cvt32_bounds x
    rw [float64Value_cvt64, float32Value_cvt32]
    exact ⟨cvt64_getLsbD_sign x, hlo64, hhi64, one_div_two_pow_le_convertedValue (by decide) x,
      convertedValue_le_one (by decide) x, cvt32_getLsbD_sign x, hlo32, hhi32,
      one_div_two_pow_le_convertedValue (by decide) x, convertedValue_le_one (by decide) x,
      cvt64_of_round_up_to_one, cvt32_of_round_up_to_one⟩

/-! ### The values of a format around an operand (R171) -/

section Fields
variable {f : FloatFormat}

theorem fieldsValue_true (biased frac : Nat) : fieldsValue f true biased frac = -fieldsValue f false biased frac := by
  rw [fieldsValue, fieldsValue, if_pos rfl, if_neg Bool.false_ne_true, one_mul, neg_one_mul]

theorem fieldsValue_false_zero (frac : Nat) :
    fieldsValue f false 0 frac = frac * 2 ^ (1 - (f.bias : Int) - ((f.precision : Int) - 1)) := by
  simp [fieldsValue]

theorem fieldsValue_false_of_ne_zero {biased : Nat} (h : biased ≠ 0) (frac : Nat) :
    fieldsValue f false biased frac =
      (2 ^ (f.precision - 1) + frac) * 2 ^ ((biased : Int) - f.bias - ((f.precision : Int) - 1)) := by
  simp [fieldsValue, h]

theorem fieldsValue_false_nonneg (biased frac : Nat) : 0 ≤ fieldsValue f false biased frac := by
  obtain rfl | h := eq_or_ne biased 0
  · rw [fieldsValue_false_zero]; positivity
  · rw [fieldsValue_false_of_ne_zero h]; positivity

/-- Normal numbers are multiples of `2^e`, or have a last bit of lower weight and lie below the multiples of `P`
bits. -/
theorem normal_lt_or_multiple {biased frac : Nat} (h : biased ≠ 0) (hfrac : frac < 2 ^ (f.precision - 1)) (e : Int) :
    fieldsValue f false biased frac < 2 ^ (f.precision - 1) * 2 ^ e ∨
      ∃ n : Int, fieldsValue f false biased frac = n * 2 ^ e := by
  rw [fieldsValue_false_of_ne_zero h]
  generalize (biased : Int) - f.bias - ((f.precision : Int) - 1) = k
  obtain hk | hk := lt_or_ge k e
  · left
    have hsig : (2 : Rat) ^ (f.precision - 1) + frac < 2 ^ (f.precision - 1) * 2 := by
      have hlt : (frac : Rat) < 2 ^ (f.precision - 1) := by exact_mod_cast hfrac
      linarith
    calc ((2 : Rat) ^ (f.precision - 1) + frac) * 2 ^ k < 2 ^ (f.precision - 1) * 2 * 2 ^ k :=
          mul_lt_mul_of_pos_right hsig (by positivity)
      _ = 2 ^ (f.precision - 1) * 2 ^ (k + 1) := by rw [zpow_add_one₀ two_ne_zero]; ring
      _ ≤ 2 ^ (f.precision - 1) * 2 ^ e := by
        gcongr
        · exact one_le_two
        · exact hk
  · right
    obtain ⟨j, rfl⟩ := Int.le.dest hk
    refine ⟨(2 ^ (f.precision - 1) + frac) * 2 ^ j, ?_⟩
    rw [zpow_add₀ two_ne_zero, zpow_natCast]
    push_cast
    ring

/-- Every value of the format is a multiple of `2^e`, or lies below the multiples of `P` bits, where `2^e` is no less
than the weight of a subnormal's last bit. -/
theorem fieldsValue_lt_or_multiple {e : Int} (he : 1 - (f.bias : Int) - ((f.precision : Int) - 1) ≤ e)
    (negative : Bool) (biased : Nat) {frac : Nat} (hfrac : frac < 2 ^ (f.precision - 1)) :
    fieldsValue f negative biased frac < 2 ^ (f.precision - 1) * 2 ^ e ∨
      ∃ n : Int, fieldsValue f negative biased frac = n * 2 ^ e := by
  cases negative with
  | true =>
    left
    rw [fieldsValue_true]
    exact (neg_nonpos.mpr (fieldsValue_false_nonneg biased frac)).trans_lt (by positivity)
  | false =>
    obtain rfl | h := eq_or_ne biased 0
    · left
      have hlt : (frac : Rat) < 2 ^ (f.precision - 1) := by exact_mod_cast hfrac
      rw [fieldsValue_false_zero]
      exact mul_lt_mul hlt (zpow_le_zpow_right₀ one_le_two he) (by positivity) (by positivity)
    · exact normal_lt_or_multiple h hfrac e

end Fields

/-! ### No value is nearer (R171, R173, R174) -/

/-- A multiple of `u` within half of `u` is a nearest multiple, and another is as near only at exactly half. -/
theorem nearest_multiple_of_error_le {u v : Rat} {q : Int} (herr : 2 * |q * u - v| ≤ u) (n : Int) :
    |q * u - v| ≤ |n * u - v| ∧ (|n * u - v| = |q * u - v| → n ≠ q → 2 * |q * u - v| = u) := by
  obtain rfl | hne := eq_or_ne n q
  · exact ⟨le_rfl, fun _ h => absurd rfl h⟩
  · have hu : 0 ≤ u := (by positivity : 0 ≤ 2 * |q * u - v|).trans herr
    have hone : (1 : Rat) ≤ |(n - q : Int)| := by exact_mod_cast Int.one_le_abs (sub_ne_zero.mpr hne)
    have hgap : u ≤ |n * u - v| + |q * u - v| :=
      calc u ≤ |((n - q : Int) : Rat)| * u := le_mul_of_one_le_left hu (by exact_mod_cast hone)
        _ = |(n * u - v) - (q * u - v)| := by
          rw [← abs_of_nonneg hu, ← abs_mul, abs_of_nonneg hu]; push_cast; congr 1; ring
        _ ≤ |n * u - v| + |q * u - v| := abs_sub _ _
    exact ⟨by linarith, fun _ _ => by linarith⟩

section Nearest
variable {f : FloatFormat}

/-- The fraction is even where the rounded significand is, also after a carry out. -/
theorem fractionField_even_of_roundedSig_even (hP : 2 ≤ f.precision) {x : Word}
    (h : f.precision < bitlen (mantissa x).toNat) (heven : roundedSig f.precision (mantissa x).toNat % 2 = 0) :
    fractionField f x % 2 = 0 := by
  have hadd := fractionField_add (f := f) (by omega) x
  have hlead : 2 ∣ 2 ^ (f.precision - 1) := dvd_pow_self 2 (by omega)
  obtain ⟨hshort, -⟩ | ⟨-, -, hround⟩ | ⟨-, -, hround⟩ :=
    roundNumerator_cases (P := f.precision) (m := (mantissa x).toNat) (by omega)
  · omega
  · have hsum : fractionField f x + 2 ^ (f.precision - 1) = roundedSig f.precision (mantissa x).toNat := by
      rw [hadd, hround]
    omega
  · have hsum : fractionField f x + 2 ^ (f.precision - 1) = 2 ^ (f.precision - 1) := by
      rw [hadd, hround]
    omega

/-- The conversion of a rounded numerator against a multiple of its unit. -/
theorem convertedValue_nearest_multiple (hP : 2 ≤ f.precision) {x : Word}
    (h : f.precision < bitlen (mantissa x).toNat) (n : Int) :
    |convertedValue f x - value x| ≤ |n * keptUnit f x - value x| ∧
      (|n * keptUnit f x - value x| = |convertedValue f x - value x| → n * keptUnit f x ≠ convertedValue f x →
        fractionField f x % 2 = 0) := by
  obtain ⟨herr, htie⟩ := convertedValue_error (f := f) (by omega) h
  have hval : convertedValue f x = (roundedSig f.precision (mantissa x).toNat : Int) * keptUnit f x :=
    convertedValue_of_rounded (by omega) h
  rw [hval] at herr htie ⊢
  obtain ⟨hnear, hhalf⟩ := nearest_multiple_of_error_le herr n
  refine ⟨hnear, fun heq hne => fractionField_even_of_roundedSig_even hP h (htie (hhalf heq ?_))⟩
  rintro rfl
  exact hne rfl

/-- Below the multiples of `P` bits every value is farther off than the least of them, and so than the conversion. -/
theorem convertedValue_nearer_of_lt (hP : 2 ≤ f.precision) {x : Word}
    (h : f.precision < bitlen (mantissa x).toNat) {w : Rat} (hw : w < 2 ^ (f.precision - 1) * keptUnit f x) :
    |convertedValue f x - value x| < |w - value x| := by
  have hle := two_pow_mul_keptUnit_le_value (f := f) (by omega) h
  have hnear : |convertedValue f x - value x| ≤ |2 ^ (f.precision - 1) * keptUnit f x - value x| := by
    exact_mod_cast (convertedValue_nearest_multiple hP h (2 ^ (f.precision - 1))).1
  rw [abs_of_nonpos (a := _ * _ - _) (sub_nonpos.mpr hle)] at hnear
  rw [abs_of_neg (a := w - value x) (by linarith)]
  linarith

/-- No pattern's value is nearer to the operand than the conversion; where another is as near, the fraction of the
conversion is even. -/
theorem convertedValue_nearest_even (hP : 2 ≤ f.precision) (hbias : 65 ≤ f.bias) (x : Word)
    (negative : Bool) (biased : Nat) {frac : Nat} (hfrac : frac < 2 ^ (f.precision - 1)) :
    |convertedValue f x - value x| ≤ |fieldsValue f negative biased frac - value x| ∧
      (|fieldsValue f negative biased frac - value x| = |convertedValue f x - value x| →
        fieldsValue f negative biased frac ≠ convertedValue f x → fractionField f x % 2 = 0) := by
  by_cases h : bitlen (mantissa x).toNat ≤ f.precision
  · rw [convertedValue_of_fits (by omega) h, sub_self, abs_zero]
    exact ⟨abs_nonneg _, fun heq hne => absurd (sub_eq_zero.mp (abs_eq_zero.mp heq)) hne⟩
  · have hlong := not_le.mp h
    have hlo := leadingOne_le x
    have hexp : 1 - (f.bias : Int) - ((f.precision : Int) - 1) ≤
        (discardCount f.precision (mantissa x).toNat : Int) - leadingOne x := by
      omega
    obtain hbelow | ⟨n, hn⟩ := fieldsValue_lt_or_multiple hexp negative biased hfrac
    · have hfar := convertedValue_nearer_of_lt hP hlong hbelow
      exact ⟨hfar.le, fun heq => absurd heq hfar.ne'⟩
    · rw [hn]
      exact convertedValue_nearest_multiple hP hlong n

end Nearest

theorem nearestEven64_cvt64 (x : Word) : NearestEven64 (value x) (cvt64 x) := by
  have hexp := exponent64_cvt64_bounds x
  refine ⟨decide_eq_true (by omega), fun z _ => ?_⟩
  obtain ⟨hnear, htie⟩ := convertedValue_nearest_even (f := binary64) (by decide) (by decide) x
    (z.getLsbD 63) (exponent64 z) (frac := fraction64 z) (BitVec.isLt _)
  rw [float64Value_cvt64]
  refine ⟨hnear, fun heq hne => ?_⟩
  rw [cvt64, pattern_getLsbD_zero (by decide), htie heq hne]
  rfl

theorem nearestEven32_cvt32 (x : Word) : NearestEven32 (value x) (cvt32 x) := by
  have hexp := exponent32_cvt32_bounds x
  refine ⟨decide_eq_true (by omega), fun z _ => ?_⟩
  obtain ⟨hnear, htie⟩ := convertedValue_nearest_even (f := binary32) (by decide) (by decide) x
    (z.getLsbD 31) (exponent32 z) (frac := fraction32 z) (BitVec.isLt _)
  rw [float32Value_cvt32]
  refine ⟨hnear, fun heq hne => ?_⟩
  rw [cvt32, pattern_getLsbD_zero (by decide), htie heq hne]
  rfl

/-- Settles O18: from `2^(P-1)` units up the format has multiples of the unit only, and rounding takes the nearest of
them; every other value lies below all of these, and the operand does not. -/
theorem cvtdRoundsToNearestEven : Obligations.CvtdRoundsToNearestEven := fun a _ _ =>
  ⟨rfl, completes_of_outcome_ok (P := fun y => y.getLsbD 63 = false ∧ NearestEven64 (value a) y) rfl
    ⟨cvt64_getLsbD_sign a, nearestEven64_cvt64 a⟩⟩

theorem cvtsOutcome_of_hasCvts {p : Params} (h : p.hasCvts = true) (a : Word) :
    cvtsOutcome p a = .ok ((cvt32 a).setWidth 64) := by
  rw [cvtsOutcome, if_pos h]; rfl

theorem cvtsOutcome_of_not_hasCvts {p : Params} (h : p.hasCvts = false) (a : Word) :
    cvtsOutcome p a = illegalOutcome := by
  rw [cvtsOutcome, h]; rfl

/-- Settles O19: with the converter, as for `CVTD` in the narrower format; without it, the outcome is the fault. -/
theorem cvtsRoundsToNearestEvenOrIsIllegal : Obligations.CvtsRoundsToNearestEvenOrIsIllegal := by
  refine fun a b s => ⟨rfl, fun h => ?converts, fun h => ?illegal⟩
  case converts =>
    exact completes_of_outcome_ok
      (P := fun y => ∃ g : BitVec 32, y = g.setWidth 64 ∧ g.getLsbD 31 = false ∧ NearestEven32 (value a) g)
      (cvtsOutcome_of_hasCvts h a) ⟨cvt32 a, rfl, cvt32_getLsbD_sign a, nearestEven32_cvt32 a⟩
  case illegal => exact completes_of_outcome_status (congrArg CmdOutcome.status (cvtsOutcome_of_not_hasCvts h a))

end Sys2Proof.Proofs
end

section
/-! PROOFS. The outcomes of a command (60_exceptions.md): that there are four, which op codes report `ILLEGAL_OP`,
which commands always end `OK`, and where faults come from. -/

namespace Sys2Proof.Proofs

open Sys2Proof.Machine Sys2Proof.Safety Sys2Proof.Laws

/-! ### The faults a step shows (R202, R203) -/

theorem complete_eval_status_eq_illegalOp_iff (s : State) :
    (s.complete (eval s.params s.cmd)).status = Status.illegalOp.code ↔ SelectsNothing s :=
  (settled_complete_eval s).illegalOp

theorem complete_eval_status_eq_precisionError_iff (s : State) :
    (s.complete (eval s.params s.cmd)).status = Status.precisionError.code ↔ s.op = 0b011#3 ∧ Overflows s :=
  (settled_complete_eval s).precisionError

/-- Settles O24: the outcome of these op codes is the fault, and the status a step shows is that of its outcome. -/
theorem reservedCodesReportIllegalOp : Obligations.ReservedCodesReportIllegalOp := by
  refine ⟨fun a b s => ⟨rfl, completes_of_outcome_status rfl, rfl, completes_of_outcome_status rfl, fun h => ?cvts⟩,
    fun s t hstep => ?step⟩
  case cvts => exact completes_of_outcome_status (congrArg CmdOutcome.status (cvtsOutcome_of_not_hasCvts h a))
  case step =>
    obtain rfl : s.complete (eval s.params s.cmd) = t :=
      Host.Outcome.next.inj ((step_eq_complete_eval s).symm.trans hstep)
    exact complete_eval_status_eq_illegalOp_iff s

/-! ### The commands that end `OK` (R204) -/

/-- The unary operations have no failure condition. -/
theorem status_eval_of_unary {p : Params} {c : Cmd}
    (h : c.op = 0b000#3 ∨ c.op = 0b001#3 ∨ c.op = 0b100#3 ∨ (c.op = 0b101#3 ∧ p.hasCvts = true)) :
    (eval p c).status = .ok := by
  obtain hlod | hmant | hcvtd | ⟨hcvts, hp⟩ := h
  · rw [eval_of_op_lod p hlod, status_ok]
  · rw [eval_of_op_mant p hmant, status_ok]
  · rw [eval_of_op_cvtd p hcvtd, status_ok]
  · rw [eval_of_op_cvts_of_hasCvts p hcvts hp, status_ok]

/-- The multiplications have no failure condition but the exponent sum. -/
theorem status_eval_of_product (p : Params) {c : Cmd} (hop : c.op = 0b010#3 ∨ c.op = 0b011#3)
    (hsum : leadingOne c.a + leadingOne c.b ≤ 63) : (eval p c).status = .ok := by
  obtain ⟨y, -, hcmul, hmul⟩ := exists_product_with_exponent hsum
  obtain hop | hop := hop
  · rw [eval_of_op_cmul p hop, hcmul, status_ok]
  · rw [eval_of_op_mul p hop, hmul, status_ok]

theorem noFault_complete_eval_iff (s : State) :
    NoFault (s.complete (eval s.params s.cmd)) ↔ ¬ SelectsNothing s ∧ ¬ (s.op = 0b011#3 ∧ Overflows s) := by
  rw [NoFault, Ne, Ne, complete_eval_status_eq_precisionError_iff, complete_eval_status_eq_illegalOp_iff, and_comm]

/-- Settles O27: each clause is what the status of `eval` is, for the op codes and operands it names. -/
theorem noOtherOutcome : Obligations.NoOtherOutcome := fun s =>
  ⟨_, step_eq_complete_eval s,
    fun hop => (code_eq_iff _ _).mpr (status_eval_of_unary (c := s.cmd) hop),
    fun hop hsum => (code_eq_iff _ _).mpr (status_eval_of_product (c := s.cmd) s.params hop hsum),
    noFault_complete_eval_iff s⟩

/-! ### The four outcomes (R200) -/

/-- Each outcome reports its own code of R74, and a result is what `y` then is. -/
theorem complete_shows_outcome (s : State) (o : CmdOutcome) :
    (∃ y, o = .ok y ∧ (s.complete o).y = y ∧ (s.complete o).status = 0b00#2) ∨
    (o = .absent ∧ (s.complete o).status = 0b01#2) ∨
    (o = .fault .precisionError ∧ (s.complete o).status = 0b10#2) ∨
    (o = .fault .illegalOp ∧ (s.complete o).status = 0b11#2) :=
  match o with
  | .ok y => .inl ⟨y, rfl, rfl, rfl⟩
  | .absent => .inr (.inl ⟨rfl, rfl⟩)
  | .fault .precisionError => .inr (.inr (.inl ⟨rfl, rfl⟩))
  | .fault .illegalOp => .inr (.inr (.inr ⟨rfl, rfl⟩))

/-- Settles O26: a step completes with the outcome of `eval`, which is one of the four. -/
theorem everyCommandEndsInOneOutcome : Obligations.EveryCommandEndsInOneOutcome := fun s =>
  ⟨_, step_eq_complete_eval s, complete_shows_outcome s _⟩

end Sys2Proof.Proofs
end

section
/-! PROOFS. Power-on and the step (70_reset_and_hazards.md): what the outputs show before the first step, which command
a step evaluates, and which of the build-time parameters an outcome depends on. -/

namespace Sys2Proof.Proofs

open Sys2Proof.Machine Sys2Proof.Safety Sys2Proof.Laws

/-! ### Power-on (R230) -/

/-- Without pipeline registers the outputs at power-on are a completed evaluation of the inputs present. -/
theorem settled_powerOn {p : Params} (h : p.latency = 0) (c : Cmd) : Settled (State.powerOn p c) := by
  rw [State.powerOn, if_pos h]
  exact settled_complete_eval _

theorem powerOn_cmd (p : Params) (c : Cmd) : (State.powerOn p c).cmd = c := by
  rw [State.powerOn]
  split <;> rfl

/-- The zero word has no one bit, so its leading-one position is 0 (R101). -/
theorem eval_lod_zero (p : Params) (b : Word) : eval p { op := 0b000#3, a := 0, b := b } = .ok 0 := by
  have hzero : zext64 (lodUnit 0) = 0 := by decide
  rw [eval_of_op_lod p rfl, hzero]

theorem reference_latency : Params.reference.latency = 0 := rfl

/-- The outputs written in the reset state are those of `LOD 0` on its inputs. -/
theorem reset_eq_powerOn : State.reset = State.powerOn Params.reference { op := 0b000#3, a := 0, b := 0 } := by
  rw [State.powerOn, if_pos reference_latency, eval_lod_zero]
  rfl

/-- Settles O38: power-on completes the evaluation of the inputs, which leaves any block settled. -/
theorem powerOnOutputs : Obligations.PowerOnOutputs :=
  ⟨fun p c h => ⟨settled_powerOn h c, powerOn_cmd p c⟩, reset_eq_powerOn⟩

/-- Settles O29: the reset state is a block at power-on. -/
theorem outputsFollowInputsAtReset : Obligations.OutputsFollowInputsAtReset := by
  rw [Obligations.OutputsFollowInputsAtReset, reset_eq_powerOn]
  exact settled_powerOn reference_latency _

/-! ### The command a step evaluates (R235) -/

/-- The ports, read as a command word, decode to the instruction a step evaluates (R70, R76). -/
theorem decode_wordOfCmd_cmd (s : State) : decode (wordOfCmd s.cmd) = s.instr := by
  rw [decode, cmdOfWord_wordOfCmd, State.instr]

/-- A window at least as wide as the ports places the whole command word on them. -/
theorem withFetchWord_toNat {nbits : Nat} (h : 131 ≤ nbits) (s : State) (w : CommandWord) :
    s.withFetchWord nbits w.toNat = s.present (cmdOfWord w) := by
  have hlt : w.toNat < 2 ^ nbits := w.isLt.trans_le (Nat.pow_le_pow_right (by decide) h)
  rw [State.withFetchWord, Nat.mod_eq_of_lt hlt, BitVec.ofNat_toNat, BitVec.setWidth_eq]

/-- A command the host drives is the one the next step evaluates (R22, R72). -/
theorem step_present (s : State) (c : Cmd) : step (s.present c) = exec (decodeCmd c) (s.present c) := by
  rw [step, present_instr]

/-- Settles O25: a step evaluates what the ports decode to, and a placed word is what stands on the ports. -/
theorem stepEvaluatesDecodedCommand : Obligations.StepEvaluatesDecodedCommand := by
  refine ⟨fun s i hdecode => ?ports, fun s w => ?placed⟩
  case ports =>
    obtain rfl : s.instr = i := (decode_wordOfCmd_cmd s).symm.trans hdecode
    rw [step]
  case placed =>
    rw [withFetchWord_toNat (by decide), step_present]
    rfl

/-! ### The parameters (R234, R41) -/

/-- `CVTS` alone reads a parameter, and only `HAS_CVTS` (R174). -/
theorem outcomeOf_eq_of_hasCvts_eq {p q : Params} (h : p.hasCvts = q.hasCvts) (i : Instr) :
    outcomeOf p i = outcomeOf q i := by
  cases i with
  | cvts a b => rw [outcomeOf, outcomeOf, cvtsOutcome, cvtsOutcome, h]
  | _ => rfl

/-- Settles O34: `eval` reads the parameters through the outcome of the decoded instruction. -/
theorem outcomeIndependentOfLatency : Obligations.OutcomeIndependentOfLatency :=
  fun _ _ c h => outcomeOf_eq_of_hasCvts_eq h (decodeCmd c)

end Sys2Proof.Proofs
end
